-- ==== Sys2Proof/Word.lean ====
section
/-! DEFINITION. The word types of CA8 CORE: every datum is one unsigned byte (spec 00_scope.md R7), and `pc` and
`fault_info` are 9 bits wide (10_state.md R14, R18). -/

namespace Sys2Proof

/-- A register value, memory cell, operand byte or ALU result: unsigned, 0..255 (00_scope.md R7). -/
abbrev Byte := BitVec 8

/-- A 9-bit value: `pc` (10_state.md R14) and `fault_info` (10_state.md R18). -/
abbrev Word9 := BitVec 9

/-- A general register index 0..7 (10_state.md R10). -/
abbrev Reg := Fin 8

/-- `zext_9(v)` (00_scope.md R7). -/
def zext9 (v : Byte) : Word9 := v.setWidth 9

@[simp] theorem zext9_toNat (v : Byte) : (zext9 v).toNat = v.toNat := by
  have := v.isLt
  simp only [zext9, BitVec.toNat_setWidth]
  omega

end Sys2Proof
end

