-- ==== Sys2Proof/Config.lean ====
section
/-! DEFINITION. The implementation parameters of CA8 CORE (spec 00_scope.md R5) and its free values. -/

namespace Sys2Proof.Config

/-- The two parameters that 00_scope.md R5 leaves to the model as named arguments. They are fixed for one core. They
stand in `State.params`, so that a statement about every state is a statement about both values of each
(log entry 3). -/
structure Params where
  /-- `OVERFETCH_FAULT`: whether the unused over-fetched bytes past 255 fault (D3, 40_execution_cycle.md R57). -/
  overfetchFault : Bool
  /-- `RESET_REGS_DEFINED`: whether R0 to R6 and FL hold 0 at launch (true) or hold no value until first written
  (false: what State then has in their fields are free values, which no step reads) (D8, D9, 10_state.md R28; log entry 5). -/
  resetRegsDefined : Bool
  deriving DecidableEq, Repr

/-- The defaults that 00_scope.md R5 states. -/
def Params.default : Params := { overfetchFault := false, resetRegsDefined := true }

/-- `SP_INDEX` (00_scope.md R5). -/
abbrev spIndex : Reg := 7

/-- `SP_INIT` (00_scope.md R5). -/
def spInit : Byte := 0xF4

/-- `MEM_CELLS`: the number of memory cells, addresses 0..255 (00_scope.md R5). -/
abbrev memCells : Nat := 256

/-- `MAX_IMAGE`: the largest program image, in bytes (00_scope.md R5). -/
abbrev maxImage : Nat := 256

/-- `LOAD_BASE` (00_scope.md R5). -/
abbrev loadBase : Nat := 0

/-- `RESET_PC` (00_scope.md R5). -/
def resetPc : Word9 := 0

/-- What a memory cell holds after the reset clear (10_state.md R20, R28): 0. -/
abbrev clearedCell : Byte := 0

/-- FREE VALUE: the byte on the `out_data` pins at a moment when `out_valid` is 0, which 10_state.md R24 leaves
unspecified (93_implementation_defined.md U14 "any value"). The argument is the moment at which the host looks
(log entry 7). -/
opaque idleOutData : Nat → Byte

/-- FREE VALUE: what stands in `x[r]` after the `n`-th reset of a core with RESET_REGS_DEFINED = false, when it holds no
value (no step reads it: `powerUpReg n r`, for r in 0..6; 10_state.md R28, D8; log entry 5). -/
opaque powerUpReg : Nat → Nat → Byte

/-- FREE VALUE: what stands in FL after the `n`-th reset of a core with RESET_REGS_DEFINED = false (10_state.md R28, D9;
log entry 5). -/
opaque powerUpFl : Nat → BitVec 3

end Sys2Proof.Config
end

