-- ==== Sys2Proof/Machine/State.lean ====
section
/-! DEFINITION. The state of CA8 CORE as plain data (spec 10_state.md R10-R28), its reset value, and the reasons a
step can stop. -/

namespace Sys2Proof.Machine

/-- The run state (10_state.md R17). Its fourth encoding, 0b11, is never produced (log entry 16). -/
inductive RunState where
  | running
  | halted
  | faulted
  deriving DecidableEq, Repr

/-- The encoding of the run state (10_state.md R17). -/
def RunState.code : RunState → BitVec 2
  | .running => 0b00
  | .halted => 0b01
  | .faulted => 0b10

/-- The hardware fault causes (60_exceptions.md R89); code 7 is reserved and never written. -/
inductive FaultCause where
  /-- No fault has occurred. -/
  | none
  /-- The opcode byte is not in the decode ROM (60_exceptions.md R90). -/
  | illegalOpcode
  /-- A register operand byte is above 7 (60_exceptions.md R91). -/
  | illegalRegister
  /-- An address the instruction needs is above 255 (60_exceptions.md R92). -/
  | addressRange
  /-- A push with SP = 0 (60_exceptions.md R93). -/
  | stackOverflow
  /-- A pop that would make SP = 256 (60_exceptions.md R94). -/
  | stackUnderflow
  /-- The ALU is asked for an operation it lacks: no rule raises it (60_exceptions.md R95). -/
  | aluUnsupported
  deriving DecidableEq, Repr

/-- The fault codes (60_exceptions.md R89). -/
def FaultCause.code : FaultCause → BitVec 3
  | .none => 0
  | .illegalOpcode => 1
  | .illegalRegister => 2
  | .addressRange => 3
  | .stackOverflow => 4
  | .stackUnderflow => 5
  | .aluUnsupported => 6

/-- The 256 cells as a canonical list: addresses strictly rising, and no cell listed that holds what an unlisted
address reads as (`Memory.wf` in Ops.lean; log entry 13). -/
abbrev Memory := List Host.Cell

/-- Everything the spec gives the machine. -/
structure State where
  /-- `x[0]`..`x[7]`; `x[7]` is SP (10_state.md R10, R11). -/
  regs        : Vector Byte 8
  /-- The address of the next opcode byte, 0..256 (10_state.md R14). -/
  pc          : Word9
  /-- FL: L in bit 2, G in bit 1, E in bit 0 (10_state.md R16). -/
  fl          : BitVec 3
  /-- The run state (10_state.md R17). -/
  run         : RunState
  /-- The fault latch's cause (10_state.md R18). -/
  faultCause  : FaultCause
  /-- The fault latch's recorded value (10_state.md R18). -/
  faultInfo   : Word9
  /-- The 256 memory cells (10_state.md R20). -/
  mem         : Memory
  /-- The output stream, in emission order (10_state.md R27). -/
  out         : List Byte
  /-- The output port (10_state.md R24): `some v` is out_valid = 1 with out_data = v, `none` is out_valid = 0
  (log entry 7). -/
  outPort     : Option Byte
  /-- Whether rst was 1 at the last clock edge (70_reset_and_hazards.md R106; log entry 9). -/
  rstSeen     : Bool
  /-- Marks for R0..R6: the register holds no value yet, since no instruction has written it (10_state.md R28,
  RESET_REGS_DEFINED = false; log entry 5). -/
  unwritten   : Vector Bool 7
  /-- The mark for FL (10_state.md R28; log entry 5). -/
  flUnwritten : Bool
  /-- A step has ended in the model-only outcome UnwrittenRead: it read a marked register or FL. It is treated like a fault,
  so the core takes no further step until reset (00_scope.md R9, 10_state.md R28; log entry 22). -/
  unwrittenRead : Bool
  /-- How many reset edges there have been: the argument of the free values that a reset leaves, no part of the
  hardware (log entry 5). -/
  resets      : Nat
  /-- The parameters of this core (00_scope.md R5; log entry 3). No step and no reset changes them. -/
  params      : Config.Params
  deriving DecidableEq, Repr

/-- Why a step stops without a next state: never, so there is no constructor, and nothing raises one. The hardware's own
faults are not here: fault entry is a next state (60_exceptions.md R97; log entry 1), and so is the model-only outcome
UnwrittenRead (00_scope.md R9; log entry 22). Safe. -/
inductive Fault where
  deriving DecidableEq, Repr

/-- Why the model gives no meaning. -/
inductive Refusal where
  /-- An instruction that has no meaning yet; only Dispatch.lean may answer so, and no arm does. Safe. -/
  | notModelled (mnemonic : String)
  /-- A launch with an image of more than 256 bytes, which 70_reset_and_hazards.md R110 refuses. Raised by `launch`
  of Port.lean. Safe. -/
  | imageTooLong
  deriving DecidableEq, Repr

/-- The registers after the `n`-th reset (10_state.md R28): SP at its value, R0 to R6 at 0, or, where they hold no value, at free
values that no step reads. -/
def resetRegs (p : Config.Params) (n : Nat) : Vector Byte 8 :=
  if p.resetRegsDefined then #v[0, 0, 0, 0, 0, 0, 0, Config.spInit]
  else
    #v[Config.powerUpReg n 0, Config.powerUpReg n 1, Config.powerUpReg n 2, Config.powerUpReg n 3,
      Config.powerUpReg n 4, Config.powerUpReg n 5, Config.powerUpReg n 6, Config.spInit]

/-- The reset values of 10_state.md R28 with memory cleared, for a core with parameters `p` after its `n`-th reset, after
rst has fallen: what the first instruction of a run with an empty image sees (70_reset_and_hazards.md R109). -/
def State.resetWith (p : Config.Params) (n : Nat) : State where
  regs := resetRegs p n
  pc := Config.resetPc
  fl := if p.resetRegsDefined then 0b000 else Config.powerUpFl n
  run := .running
  faultCause := .none
  faultInfo := 0
  mem := []
  out := []
  outPort := Option.none
  rstSeen := false
  unwritten := Vector.replicate 7 (!p.resetRegsDefined)
  flUnwritten := !p.resetRegsDefined
  unwrittenRead := false
  resets := n
  params := p

/-- The machine right after reset, with the default parameters of 00_scope.md R5. -/
def State.reset : State := State.resetWith Config.Params.default 0

end Sys2Proof.Machine
end

