-- ==== Sys2Proof/Machine/Ops.lean ====
section
/-! DEFINITION. The named operations over memory and the registers (spec 00_scope.md R8, 20_memory.md R30-R31), fault
entry (60_exceptions.md R97), and the stack's and the output port's operations. CA8 CORE has no return from a
fault (60_exceptions.md R98), so no operation stands beside fault entry. -/

namespace Sys2Proof.Machine

/-! ### Memory -/

/-- `MemRead(addr, 1)` (20_memory.md R30). An unlisted cell holds what the reset clear left: 0 (10_state.md R20). -/
def Memory.read : Memory → Nat → Byte
  | [], _ => Config.clearedCell
  | (k, b) :: rest, a => if k = a then b else Memory.read rest a

/-- `MemWrite(addr, 1, v)` (20_memory.md R31), keeping the list canonical: writing the value of a cleared cell removes
the entry. -/
def Memory.write : Memory → Nat → Byte → Memory
  | [], a, v => if v = Config.clearedCell then [] else [(a, v)]
  | (k, b) :: rest, a, v =>
    if a < k then
      if v = Config.clearedCell then (k, b) :: rest else (a, v) :: (k, b) :: rest
    else if a = k then
      if v = Config.clearedCell then rest else (a, v) :: rest
    else (k, b) :: Memory.write rest a v

/-- The canonical form: addresses strictly rising and below 256, no cleared cell listed. -/
abbrev Memory.wf (m : Memory) : Prop :=
  m.Pairwise (fun c d => c.1 < d.1) ∧ ∀ c ∈ m, c.1 < Config.memCells ∧ c.2 ≠ Config.clearedCell

/-! ### Registers, flags and pc -/

/-- Reads `x[r]` (10_state.md R10). -/
def State.reg (s : State) (r : Reg) : Byte := s.regs[r.val]

/-- Whether `x[r]` holds a value that reset or an instruction gave it: always for SP, and for R0..R6 unless marked
(10_state.md R28). -/
def State.holds (s : State) (r : Reg) : Bool := !(s.unwritten[r.val]?.getD false)

/-- `x[r] <- v` (10_state.md R10): no register is hardwired. The register holds a value from then on. -/
def State.writeReg (s : State) (r : Reg) (v : Byte) : State :=
  { s with regs := s.regs.set r.val v, unwritten := s.unwritten.setIfInBounds r.val false }

/-- SP is another name for `x[7]` (10_state.md R11). -/
def State.sp (s : State) : Byte := s.reg Config.spIndex

/-- `SP <- v` (00_scope.md R8). -/
def State.setSp (s : State) (v : Byte) : State := s.writeReg Config.spIndex v

/-- `FL.L`, bit 2 (10_state.md R16). -/
def State.flagL (s : State) : Bool := s.fl.getLsbD 2

/-- `FL.G`, bit 1 (10_state.md R16). -/
def State.flagG (s : State) : Bool := s.fl.getLsbD 1

/-- `FL.E`, bit 0 (10_state.md R16). -/
def State.flagE (s : State) : Bool := s.fl.getLsbD 0

/-- `FL <- v`, all three bits (10_state.md R16). FL holds a value from then on. -/
def State.setFl (s : State) (v : BitVec 3) : State := { s with fl := v, flUnwritten := false }

/-- `pc <- t` for an absolute 8-bit target (45_control_transfer.md R81). -/
def State.setPc (s : State) (t : Byte) : State := { s with pc := zext9 t }

/-- `pc <- s.pc + 1 + n`, past an instruction of `n` operand bytes (40_execution_cycle.md R62). -/
def State.advance (s : State) (n : Nat) : State := { s with pc := BitVec.ofNat 9 (s.pc.toNat + 1 + n) }

/-! ### Memory, output and run state -/

/-- `mem[a] <- v` (20_memory.md R31). -/
def State.writeMem (s : State) (a v : Byte) : State := { s with mem := s.mem.write a.toNat v }

/-- `mem[a]` (20_memory.md R30). -/
def State.readMem (s : State) (a : Byte) : Byte := s.mem.read a.toNat

/-- `emit(v)`: appends to the output stream and presents `v` on the output port (42_data_output.md R70). -/
def State.emit (s : State) (v : Byte) : State := { s with out := s.out ++ [v], outPort := some v }

/-- `halt()` (41_system.md R66). -/
def State.halt (s : State) : State := { s with run := .halted }

/-- FAULT ENTRY (60_exceptions.md R97): the run state and the latch change, everything else keeps its value. -/
def State.raise (s : State) (cause : FaultCause) (info : Word9) : State :=
  { s with run := .faulted, faultCause := cause, faultInfo := info }

/-- The model-only outcome UnwrittenRead, which is treated like a fault: the run is over and everything of the hardware keeps
its value; it is no hardware fault, so the run state and the latch keep theirs too (00_scope.md R9, 10_state.md R28; log
entry 22). -/
def State.endUnwrittenRead (s : State) : State := { s with unwrittenRead := true }

/-- A push after its checks: decrement SP, then write at the new SP (44_stack.md R77, R78). -/
def State.push (s : State) (v : Byte) : State := (s.setSp (s.sp - 1)).writeMem (s.sp - 1) v

/-- The core takes steps: it is neither Halted nor Faulted (41_system.md R67), and no step has ended in UnwrittenRead, which
is treated like a fault (00_scope.md R9). -/
abbrev State.TakesSteps (s : State) : Prop := s.run = .running ∧ s.unwrittenRead = false

/-- What every step begins with: rst is 0, and the output port's pulse of an earlier instruction is over
(10_state.md R24; log entries 7 and 8). -/
def State.beginStep (s : State) : State := { s with outPort := none, rstSeen := false }

end Sys2Proof.Machine
end

