-- ==== Sys2Proof/Machine/Operands.lean ====
section
/-! DEFINITION. The operand forms (spec 30_encoding.md R45, R46): the register-operand check
(40_execution_cycle.md R60) and the reading of a register or of FL (10_state.md R28). An immediate is the operand byte
itself. -/

namespace Sys2Proof.Machine

/-- What a step or an instruction answers. -/
abbrev Result := Host.Outcome State Fault Refusal

/-- The register operand check (40_execution_cycle.md R60): a byte 0..7 is the register's index, a larger byte raises
ILLEGAL_REGISTER with the byte as info (60_exceptions.md R91). The byte is not masked. -/
def withRegister (b : Byte) (s : State) (k : Reg → Result) : Result :=
  if h : b.toNat < 8 then k ⟨b.toNat, h⟩ else .next (s.raise .illegalRegister (zext9 b))

/-- A step that reads `x[r]` goes on as `k` if the register holds a value, and ends in UnwrittenRead, with nothing of
the instruction's effect, if it holds none, which is so only with RESET_REGS_DEFINED = false (00_scope.md R9, 10_state.md
R28; log entry 22). -/
def withHeld (r : Reg) (s : State) (k : Result) : Result := if s.holds r then k else .next s.endUnwrittenRead

/-- The value of `x[r]`. -/
def withValue (r : Reg) (s : State) (k : Byte → Result) : Result := withHeld r s (k (s.reg r))

/-- The bit FL.E; a step that reads it before any CMP has written FL, with RESET_REGS_DEFINED = false, ends in
UnwrittenRead (10_state.md R28, D9). -/
def withFlagE (s : State) (k : Bool → Result) : Result :=
  if s.flUnwritten then .next s.endUnwrittenRead else k s.flagE

/-- Two register operands, `a` checked before `b` (60_exceptions.md R96), and their values (format F2RR). -/
def withTwoValues (a b : Byte) (s : State) (k : Reg → Byte → Byte → Result) : Result :=
  withRegister a s fun ra =>
    withRegister b s fun rb =>
      withValue ra s fun u =>
        withValue rb s fun v => k ra u v

end Sys2Proof.Machine
end

