-- ==== Sys2Proof/Machine/Flags.lean ====
section
/-! DEFINITION. The arithmetic of the ALU and the one flag computation (spec 43_alu.md R71-R76). -/

namespace Sys2Proof.Machine

/-- MUL's result: the exact product modulo 256 (43_alu.md R72, R75). -/
def aluMul (u v : Byte) : Byte := BitVec.ofNat 8 (u.toNat * v.toNat)

/-- ADD's result: the exact sum modulo 256 (43_alu.md R73, R75). -/
def aluAdd (u v : Byte) : Byte := BitVec.ofNat 8 (u.toNat + v.toNat)

/-- CMP's flags: the unsigned order of the raw bytes, exactly one bit set (43_alu.md R74). -/
def aluCmp (u v : Byte) : BitVec 3 :=
  if u.toNat < v.toNat then 0b100
  else if u.toNat > v.toNat then 0b010
  else 0b001

end Sys2Proof.Machine
end

