-- ==== Sys2Proof/Machine/Alu.lean ====
section
/-! DEFINITION. The ALU instructions (spec 43_alu.md). -/

namespace Sys2Proof.Machine

/-- MUL (43_alu.md R72): no flag. -/
def execMul (a b : Byte) (s : State) : Result :=
  withTwoValues a b s fun r u v => .next ((s.writeReg r (aluMul u v)).advance 2)

/-- ADD (43_alu.md R73): no flag. -/
def execAdd (a b : Byte) (s : State) : Result :=
  withTwoValues a b s fun r u v => .next ((s.writeReg r (aluAdd u v)).advance 2)

/-- CMP (43_alu.md R74): FL only. -/
def execCmp (a b : Byte) (s : State) : Result :=
  withTwoValues a b s fun _ u v => .next ((s.setFl (aluCmp u v)).advance 2)

end Sys2Proof.Machine
end

