-- ==== Sys2Proof/Machine/Control.lean ====
section
/-! DEFINITION. Control transfer (spec 45_control_transfer.md). Each meaning leaves the pc at the next address itself
(R81). -/

namespace Sys2Proof.Machine

/-- CALL (45_control_transfer.md R82): the return address is checked before SP, and `x[a]` is read after the push, so
CALL R7 jumps to the decremented SP (D18; log entry 12). -/
def execCall (a : Byte) (s : State) : Result :=
  withRegister a s fun r =>
    let ret := s.pc.toNat + 2
    if ret > 255 then .next (s.raise .addressRange (BitVec.ofNat 9 ret))
    else if s.sp = 0 then .next (s.raise .stackOverflow (zext9 s.sp))
    else
      withHeld r s
        (let s' := s.push (BitVec.ofNat 8 ret)
         .next (s'.setPc (s'.reg r)))

/-- RET (45_control_transfer.md R83). -/
def execRet (s : State) : Result :=
  let v := s.readMem s.sp
  if s.sp = 255 then .next (s.raise .stackUnderflow (zext9 s.sp))
  else .next ((s.setSp (s.sp + 1)).setPc v)

/-- JEQ (45_control_transfer.md R84): `x[a]` is read only when the jump is taken (log entry 6). -/
def execJeq (a : Byte) (s : State) : Result :=
  withRegister a s fun r =>
    withFlagE s fun e =>
      if e then withValue r s fun t => .next (s.setPc t) else .next (s.advance 1)

/-- JNE (45_control_transfer.md R85): the equal bit clear, no other test (C6). -/
def execJne (a : Byte) (s : State) : Result :=
  withRegister a s fun r =>
    withFlagE s fun e =>
      if e then .next (s.advance 1) else withValue r s fun t => .next (s.setPc t)

/-- JMP (45_control_transfer.md R86). -/
def execJmp (a : Byte) (s : State) : Result :=
  withRegister a s fun r => withValue r s fun t => .next (s.setPc t)

end Sys2Proof.Machine
end

