-- ==== Sys2Proof/Machine/Data.lean ====
section
/-! DEFINITION. Data movement and output (spec 42_data_output.md). -/

namespace Sys2Proof.Machine

/-- LDI (42_data_output.md R68): the immediate is any byte and is not checked. -/
def execLdi (a imm : Byte) (s : State) : Result :=
  withRegister a s fun r => .next ((s.writeReg r imm).advance 2)

/-- PRN (42_data_output.md R69). -/
def execPrn (a : Byte) (s : State) : Result :=
  withRegister a s fun r => withValue r s fun v => .next ((s.emit v).advance 1)

end Sys2Proof.Machine
end

