-- ==== Sys2Proof/Machine/Stack.lean ====
section
/-! DEFINITION. The stack instructions (spec 44_stack.md). Every check stands before the first write
(60_exceptions.md R97). -/

namespace Sys2Proof.Machine

/-- PUSH (44_stack.md R78). `x[a]` is read after the decrement, so PUSH R7 stores the decremented SP (D16; log
entry 12). -/
def execPush (a : Byte) (s : State) : Result :=
  withRegister a s fun r =>
    if s.sp = 0 then .next (s.raise .stackOverflow (zext9 s.sp))
    else
      withHeld r s
        (let s' := s.setSp (s.sp - 1)
         .next ((s'.writeMem s'.sp (s'.reg r)).advance 1))

/-- POP (44_stack.md R79). The increment applies to SP after the write of `x[a]`, so POP R7 leaves the popped value
plus 1 (D17; log entry 12). -/
def execPop (a : Byte) (s : State) : Result :=
  withRegister a s fun r =>
    let v := s.readMem s.sp
    let w := if r = Config.spIndex then v else s.sp
    if w = 255 then .next (s.raise .stackUnderflow (zext9 w))
    else
      let s' := s.writeReg r v
      .next ((s'.setSp (s'.sp + 1)).advance 1)

end Sys2Proof.Machine
end

