-- ==== Sys2Proof/Machine/System.lean ====
section
/-! DEFINITION. The system instruction (spec 41_system.md). -/

namespace Sys2Proof.Machine

/-- HLT (41_system.md R66); the pc advances by 1 (40_execution_cycle.md R63). -/
def execHlt (s : State) : Result := .next (s.halt.advance 0)

end Sys2Proof.Machine
end

