-- ==== Sys2Proof/Syntax.lean ====
section
/-! DEFINITION. The instructions of CA8 CORE: the thirteen rows of spec/opcode_table.json (30_encoding.md R48). -/

namespace Sys2Proof

/-- One constructor per opcode. `a` and `b` are the WHOLE operand bytes of the encoding (30_encoding.md R45, R46): a
register operand byte above 7 is not masked, it is checked when the instruction executes
(40_execution_cycle.md R60; log entry 15). -/
inductive Instr where
  /-- HLT: halt (41_system.md R66). -/
  | hlt
  /-- LDI a, imm: load immediate (42_data_output.md R68). -/
  | ldi (a imm : Byte)
  /-- PRN a: print register (42_data_output.md R69). -/
  | prn (a : Byte)
  /-- MUL a, b: multiply (43_alu.md R72). -/
  | mul (a b : Byte)
  /-- ADD a, b: add (43_alu.md R73). -/
  | add (a b : Byte)
  /-- PUSH a: push register (44_stack.md R78). -/
  | push (a : Byte)
  /-- POP a: pop into register (44_stack.md R79). -/
  | pop (a : Byte)
  /-- CALL a: call subroutine (45_control_transfer.md R82). -/
  | call (a : Byte)
  /-- RET: return from subroutine (45_control_transfer.md R83). -/
  | ret
  /-- CMP a, b: compare (43_alu.md R74). -/
  | cmp (a b : Byte)
  /-- JEQ a: jump if equal (45_control_transfer.md R84). -/
  | jeq (a : Byte)
  /-- JNE a: jump if not equal (45_control_transfer.md R85). -/
  | jne (a : Byte)
  /-- JMP a: jump (45_control_transfer.md R86). -/
  | jmp (a : Byte)
  deriving DecidableEq, Repr

end Sys2Proof
end

