-- ==== Sys2Proof/WellFormed.lean ====
section
/-! DEFINITION. Which instruction terms are well formed: every register operand byte is a register index 0..7
(spec 30_encoding.md R45, R46). An ill-formed term still decodes and executes: it raises ILLEGAL_REGISTER
(40_execution_cycle.md R60). -/

namespace Sys2Proof

/-- The operand bytes that the instruction's format reads as register indices, in the order they are checked
(30_encoding.md R45: `a` for F1R and F2RI, `a` then `b` for F2RR). LDI's second byte is an immediate. -/
def Instr.registerBytes : Instr → List Byte
  | .hlt => []
  | .ldi a _ => [a]
  | .prn a => [a]
  | .mul a b => [a, b]
  | .add a b => [a, b]
  | .push a => [a]
  | .pop a => [a]
  | .call a => [a]
  | .ret => []
  | .cmp a b => [a, b]
  | .jeq a => [a]
  | .jne a => [a]
  | .jmp a => [a]

/-- A legal register operand byte: bits 7:3 are 00000 (30_encoding.md R46). -/
def isRegisterByte (b : Byte) : Bool := decide (b.toNat < 8)

/-- Every register operand byte is a register index. -/
def Instr.wellFormed (i : Instr) : Bool := i.registerBytes.all isRegisterByte

end Sys2Proof
end

