-- ==== Sys2Proof/Decode.lean ====
section
/-! DEFINITION. The opcode byte's fields, the decode ROM, the decoder (total on any bytes) and the encoder
(spec 30_encoding.md R40-R50). -/

namespace Sys2Proof

/-- `AA = op[7:6]`: the operand count (30_encoding.md R41). -/
def opAA (op : Byte) : Nat := (op.extractLsb' 6 2).toNat

/-- `B = op[5]`: the ALU-operation bit (30_encoding.md R42). It selects nothing. -/
def opB (op : Byte) : Bool := op.getLsbD 5

/-- `C = op[4]`: the sets-PC bit (30_encoding.md R43). -/
def opC (op : Byte) : Bool := op.getLsbD 4

/-- `DDDD = op[3:0]`: the per-opcode identifier (30_encoding.md R44). -/
def opDDDD (op : Byte) : BitVec 4 := op.extractLsb' 0 4

/-- The four instruction formats (30_encoding.md R45). -/
inductive Format where
  | f0
  | f1R
  | f2RR
  | f2RI
  deriving DecidableEq, Repr

/-- The operation a ROM entry selects (30_encoding.md R47). -/
inductive Operation where
  | hlt
  | ldi
  | prn
  | mul
  | add
  | push
  | pop
  | call
  | ret
  | cmp
  | jeq
  | jne
  | jmp
  deriving DecidableEq, Repr

/-- A valid descriptor of the decode ROM: the operation, its format, its operand count and its sets-PC bit
(30_encoding.md R47). -/
structure RomEntry where
  operation : Operation
  format    : Format
  count     : Nat
  setsPc    : Bool
  deriving DecidableEq, Repr

/-- The thirteen valid entries, in the order of the opcode map (30_encoding.md R48). -/
def romTable : List (Byte × RomEntry) :=
  [(0b00000001, ⟨.hlt,  .f0,   0, false⟩),
   (0b10000010, ⟨.ldi,  .f2RI, 2, false⟩),
   (0b01000111, ⟨.prn,  .f1R,  1, false⟩),
   (0b10100010, ⟨.mul,  .f2RR, 2, false⟩),
   (0b10100000, ⟨.add,  .f2RR, 2, false⟩),
   (0b01000101, ⟨.push, .f1R,  1, false⟩),
   (0b01000110, ⟨.pop,  .f1R,  1, false⟩),
   (0b01010000, ⟨.call, .f1R,  1, true⟩),
   (0b00010001, ⟨.ret,  .f0,   0, true⟩),
   (0b10100111, ⟨.cmp,  .f2RR, 2, false⟩),
   (0b01010101, ⟨.jeq,  .f1R,  1, true⟩),
   (0b01010110, ⟨.jne,  .f1R,  1, true⟩),
   (0b01010100, ⟨.jmp,  .f1R,  1, true⟩)]

/-- The decode ROM, indexed by the whole opcode byte; `none` is an invalid entry (30_encoding.md R44, R47, R49). -/
def rom (op : Byte) : Option RomEntry := (romTable.find? fun row => row.1 == op).map Prod.snd

/-- The instruction of an operation with operand bytes `a` and `b`; an operation takes the bytes its format has
(30_encoding.md R45). -/
def Operation.instr (o : Operation) (a b : Byte) : Instr :=
  match o with
  | .hlt => .hlt
  | .ldi => .ldi a b
  | .prn => .prn a
  | .mul => .mul a b
  | .add => .add a b
  | .push => .push a
  | .pop => .pop a
  | .call => .call a
  | .ret => .ret
  | .cmp => .cmp a b
  | .jeq => .jeq a
  | .jne => .jne a
  | .jmp => .jmp a

/-- Why bytes do not decode. -/
inductive DecodeError where
  /-- There is no opcode byte. -/
  | noBytes
  /-- The opcode byte's ROM entry is invalid (30_encoding.md R49). -/
  | illegalOpcode (op : Byte)
  /-- The opcode is valid and the bytes end before its operands do. -/
  | truncated
  deriving DecidableEq, Repr

/-- Takes the operand bytes that a valid entry asks for off the bytes after the opcode (30_encoding.md R41, R45). -/
def decodeOperands (e : RomEntry) (rest : List Byte) : Except DecodeError (Instr × List Byte) :=
  match e.count, rest with
  | 0, rest => .ok (e.operation.instr 0 0, rest)
  | 1, a :: rest => .ok (e.operation.instr a 0, rest)
  | 2, a :: b :: rest => .ok (e.operation.instr a b, rest)
  | _, _ => .error .truncated

/-- The decoder: the instruction at the head of the bytes and the bytes after it (30_encoding.md R50). -/
def decode : List Byte → Except DecodeError (Instr × List Byte)
  | [] => .error .noBytes
  | op :: rest =>
    match rom op with
    | none => .error (.illegalOpcode op)
    | some e => decodeOperands e rest

/-- The bytes of an instruction, in address order (30_encoding.md R45, R48). -/
def encode : Instr → List Byte
  | .hlt => [0x01]
  | .ldi a imm => [0x82, a, imm]
  | .prn a => [0x47, a]
  | .mul a b => [0xA2, a, b]
  | .add a b => [0xA0, a, b]
  | .push a => [0x45, a]
  | .pop a => [0x46, a]
  | .call a => [0x50, a]
  | .ret => [0x11]
  | .cmp a b => [0xA7, a, b]
  | .jeq a => [0x55, a]
  | .jne a => [0x56, a]
  | .jmp a => [0x54, a]

/-- The three bytes of the number `w` of `nbits` bits, the first (lowest address) in bits 7..0; bits from `nbits` up
are 0. -/
def tableBytes (nbits w : Nat) : List Byte :=
  let v := w % 2 ^ nbits
  [BitVec.ofNat 8 v, BitVec.ofNat 8 (v / 2 ^ 8), BitVec.ofNat 8 (v / 2 ^ 16)]

/-- The instruction the decoder reads from an instruction word numbered as spec/opcode_table.json numbers it. -/
def decodeTableWord (nbits w : Nat) : Option Instr :=
  match decode (tableBytes nbits w) with
  | .ok (i, _) => some i
  | .error _ => none

end Sys2Proof
end

