-- ==== Sys2Proof/Machine/Fetch.lean ====
section
/-! DEFINITION. Fetching the next instruction (spec 40_execution_cycle.md R56-R59), in the order of the step's checks
(60_exceptions.md R96), and placing one where it is fetched. -/

namespace Sys2Proof.Machine

/-- What the fetch and decode stages give: an instruction, or a hardware fault to enter. -/
inductive Fetched where
  | instr (i : Instr)
  | raise (cause : FaultCause) (info : Word9)
  deriving DecidableEq, Repr

/-- The bytes at the pc and the two after it that lie in memory (40_execution_cycle.md R56, R57, R59): the longest
instruction has three. -/
def State.fetchWindow (s : State) : List Byte :=
  ([s.pc.toNat, s.pc.toNat + 1, s.pc.toNat + 2].filter fun a => decide (a < Config.memCells)).map s.mem.read

/-- The first address past the end of memory, the info of every ADDRESS_RANGE of the operand and over-fetch checks
(40_execution_cycle.md R57, R59). -/
def firstPastEnd : Word9 := 256

/-- Opcode fetch, over-fetch check, decode and operand fetch (40_execution_cycle.md R56-R59, R64). -/
def fetch (s : State) : Fetched :=
  if s.pc.toNat > 255 then .raise .addressRange s.pc
  else if s.pc.toNat + 2 > 255 && s.params.overfetchFault then .raise .addressRange firstPastEnd
  else
    match decode s.fetchWindow with
    | .ok (i, _) => .instr i
    | .error (.illegalOpcode op) => .raise .illegalOpcode (zext9 op)
    | .error .truncated => .raise .addressRange firstPastEnd
    | .error .noBytes => .raise .addressRange s.pc

/-- `bytes` at the addresses from `a` on. -/
def Memory.place (m : Memory) (a : Nat) : List Byte → Memory
  | [] => m
  | b :: bytes => Memory.place (m.write a b) (a + 1) bytes

/-- Where a three-byte instruction can be placed for the next fetch: at the pc if it fits there, else at 0. -/
def State.placePc (s : State) : Word9 := if s.pc.toNat + 2 ≤ 255 then s.pc else 0

/-- `s` with three bytes placed where the next step fetches, and a core that takes steps (log entry 18). -/
def State.placed (s : State) (bytes : List Byte) : State :=
  { s with mem := s.mem.place s.placePc.toNat bytes, pc := s.placePc, run := .running, unwrittenRead := false }

end Sys2Proof.Machine
end

