-- ==== Sys2Proof/Machine/Step.lean ====
section
/-! DEFINITION. One step: one whole instruction (spec 40_execution_cycle.md R55-R64). -/

namespace Sys2Proof.Machine

/-- The step (40_execution_cycle.md R64). With `run` other than Running, or after an UnwrittenRead, the core takes no step
and holds every state element, with out_valid at 0 (41_system.md R67, 00_scope.md R9; log entries 2 and 22). -/
def step (s : State) : Host.Outcome State Fault Refusal :=
  if s.TakesSteps then
    match fetch s.beginStep with
    | .instr i => exec i s.beginStep
    | .raise cause info => .next (s.beginStep.raise cause info)
  else .next s.beginStep

/-- `s` with the instruction word placed where `step` fetches (log entries 10 and 18). -/
def State.withFetchWord (s : State) (nbits w : Nat) : State := s.placed (tableBytes nbits w)

end Sys2Proof.Machine
end

