-- ==== Sys2Proof/Machine/Port.lean ====
section
/-! DEFINITION. The external interface (spec 10_state.md R21-R25): reset edges and the load port while rst = 1, launch,
and the output and status pins. The host has no move while rst = 0 (70_reset_and_hazards.md R113), so `step` takes no
input. -/

namespace Sys2Proof.Machine

/-- The load port's inputs at one clock edge (10_state.md R23). -/
structure LoadPins where
  loadWe   : Bool
  loadAddr : Byte
  loadData : Byte
  deriving DecidableEq, Repr

/-- The load port with `load_we` = 0. -/
def LoadPins.idle : LoadPins := { loadWe := false, loadAddr := 0, loadData := 0 }

/-- The load port's write of one edge with rst = 1 (10_state.md R23, 70_reset_and_hazards.md R107). -/
def Memory.loadWrite (m : Memory) (p : LoadPins) : Memory :=
  if p.loadWe then m.write p.loadAddr.toNat p.loadData else m

/-- One rising clock edge with rst = 1 (70_reset_and_hazards.md R106, R107): every register takes its reset value, the
first edge of the period clears memory before the load port's write, `out` starts anew, and no instruction executes.
The parameters stay. -/
def State.resetEdge (s : State) (p : LoadPins) : State :=
  let cleared : Memory := if s.rstSeen then s.mem else []
  { State.resetWith s.params (s.resets + 1) with mem := cleared.loadWrite p, rstSeen := true }

/-- A reset period: its edges in clock order (70_reset_and_hazards.md R106). -/
def State.resetPeriod (s : State) (edges : List LoadPins) : State := edges.foldl State.resetEdge s

/-- The load port's moves for an image: byte `k` to address `k`, in ascending order (70_reset_and_hazards.md R108). -/
def imageEdges (base : Nat) : List Byte → List LoadPins
  | [] => []
  | b :: img => { loadWe := true, loadAddr := BitVec.ofNat 8 base, loadData := b } :: imageEdges (base + 1) img

/-- LAUNCH (70_reset_and_hazards.md R108-R110): a reset period that loads the image from address 0, then release. An
image of more than 256 bytes is refused, never truncated. The period's first edge here writes nothing, so that an empty
image has a period too. -/
def launch (s : State) (img : List Byte) : Result :=
  if img.length ≤ Config.maxImage then
    .next (({ s with rstSeen := false }.resetPeriod (LoadPins.idle :: imageEdges Config.loadBase img)).beginStep)
  else .refused .imageTooLong

/-! ### Output pins -/

/-- `out_valid` (10_state.md R24). -/
def State.outValidPin (s : State) : Bool := s.outPort.isSome

/-- `out_data` as the host sees it at the moment `t`: the emitted value while out_valid is 1, a free value while it is
0 (10_state.md R24, 93_implementation_defined.md U14; log entry 7). -/
def State.outDataPin (s : State) (t : Nat) : Byte := s.outPort.getD (Config.idleOutData t)

/-- `halted` (10_state.md R22). -/
def State.haltedPin (s : State) : Bool := decide (s.run = .halted)

/-- `faulted` (10_state.md R22). -/
def State.faultedPin (s : State) : Bool := decide (s.run = .faulted)

/-- `fault_cause[2:0]` (10_state.md R22). -/
def State.faultCausePin (s : State) : BitVec 3 := s.faultCause.code

/-- `fault_info[8:0]` (10_state.md R22). -/
def State.faultInfoPin (s : State) : Word9 := s.faultInfo

end Sys2Proof.Machine
end

