-- ==== Sys2Proof/Safety.lean ====
section
/-! DEFINITION. The terms the claims use: what a transition leaves unchanged, fault entry as a property of an outcome,
the invariant of CA8 CORE, which registers an instruction reads and writes, how a step ends, and the end of a run. -/

namespace Sys2Proof.Machine

/-! ### Frames -/

/-- What a transition may write, besides the pc. -/
structure Writes where
  regs   : List Reg := []
  cells  : List Nat := []
  fl     : Bool := false
  run    : Bool := false
  output : Bool := false

/-- Everything of `s` that `w` does not name is the same in `t`; the pc may differ. -/
structure UnchangedBut (w : Writes) (s t : State) : Prop where
  regs   : ∀ r, r ∉ w.regs → t.reg r = s.reg r ∧ t.holds r = s.holds r
  cells  : ∀ a, a ∉ w.cells → t.mem.read a = s.mem.read a
  fl     : w.fl = false → t.fl = s.fl ∧ t.flUnwritten = s.flUnwritten
  run    : w.run = false → t.run = s.run
  output : w.output = false → t.out = s.out ∧ t.outPort = s.outPort
  latch  : t.faultCause = s.faultCause ∧ t.faultInfo = s.faultInfo
  host   : t.params = s.params ∧ t.rstSeen = s.rstSeen ∧ t.resets = s.resets
  goesOn : t.unwrittenRead = s.unwrittenRead

/-- The outcome `o` is fault entry from `s` (60_exceptions.md R97): Faulted, the latch written, and every other state
element as in `s`, the pc included. -/
def EntersFault (s : State) (o : Result) (cause : FaultCause) (info : Word9) : Prop :=
  ∃ t, o = .next t ∧ t.run = .faulted ∧ t.faultCause = cause ∧ t.faultInfo = info ∧ t.pc = s.pc ∧
    (∀ r, t.reg r = s.reg r ∧ t.holds r = s.holds r) ∧ (∀ a, t.mem.read a = s.mem.read a) ∧
    t.fl = s.fl ∧ t.flUnwritten = s.flUnwritten ∧ t.out = s.out ∧ t.outPort = s.outPort ∧
    t.params = s.params ∧ t.rstSeen = s.rstSeen ∧ t.unwrittenRead = s.unwrittenRead ∧ t.resets = s.resets

/-- The registers an instruction's rule writes, by number (10_state.md R12; RET writes SP by 45_control_transfer.md R83,
log entry 21). -/
def writtenRegs : Instr → List Nat
  | .hlt => []
  | .ldi a _ => [a.toNat]
  | .prn _ => []
  | .mul a _ => [a.toNat]
  | .add a _ => [a.toNat]
  | .push _ => [7]
  | .pop a => [a.toNat, 7]
  | .call _ => [7]
  | .ret => [7]
  | .cmp _ _ => []
  | .jeq _ => []
  | .jne _ => []
  | .jmp _ => []

/-- The registers whose values an instruction's rule reads in the state `s`, by number (10_state.md R12). A jump that is
not taken does not read its register (log entry 6). -/
def readRegs (s : State) : Instr → List Nat
  | .hlt => []
  | .ldi _ _ => []
  | .prn a => [a.toNat]
  | .mul a b => [a.toNat, b.toNat]
  | .add a b => [a.toNat, b.toNat]
  | .push a => [a.toNat, 7]
  | .pop _ => [7]
  | .call a => [a.toNat, 7]
  | .ret => [7]
  | .cmp a b => [a.toNat, b.toNat]
  | .jeq a => if s.flagE then [a.toNat] else []
  | .jne a => if s.flagE then [] else [a.toNat]
  | .jmp a => [a.toNat]

/-- The instructions that read FL (10_state.md R16). -/
def readsFl : Instr → Bool
  | .hlt => false
  | .ldi _ _ => false
  | .prn _ => false
  | .mul _ _ => false
  | .add _ _ => false
  | .push _ => false
  | .pop _ => false
  | .call _ => false
  | .ret => false
  | .cmp _ _ => false
  | .jeq _ => true
  | .jne _ => true
  | .jmp _ => false

/-- The instruction reads a register or FL that holds no value yet (10_state.md R28). -/
def ReadsUnwritten (i : Instr) (s : State) : Prop :=
  (∃ r : Reg, r.val ∈ readRegs s i ∧ s.holds r = false) ∨ (readsFl i = true ∧ s.flUnwritten = true)

/-! ### How a step ends -/

/-- The outcomes of a step (00_scope.md R9): three of R9's four, the refusal being a launch's, and the model-only
UnwrittenRead. -/
inductive StepOutcome where
  | nextState
  | halted
  | faulted
  | unwrittenRead
  deriving DecidableEq, Repr

/-- The outcome of the step that answered `t`, or of the one that ended the run there (00_scope.md R9). -/
def outcomeOf (t : State) : StepOutcome :=
  if t.unwrittenRead then .unwrittenRead
  else
    match t.run with
    | .running => .nextState
    | .halted => .halted
    | .faulted => .faulted

/-! ### Where an instruction lies -/

/-- The bytes from the pc to the end of memory. -/
def bytesFromPc (s : State) : List Byte := (List.range' s.pc.toNat (256 - s.pc.toNat)).map s.mem.read

/-- The instruction `i` lies at the pc: its bytes are in memory, at ascending addresses (20_memory.md R34). -/
def LiesAtPc (i : Instr) (s : State) : Prop :=
  s.pc.toNat + (encode i).length ≤ 256 ∧
    ∀ k (h : k < (encode i).length), s.mem.read (s.pc.toNat + k) = (encode i)[k]

/-- The opcode byte's ROM entry and its bits, as the "Encoding" line of an instruction's rule gives them: the
operation, the format, AA, B and C (30_encoding.md R48). -/
def OpcodeIs (op : Byte) (o : Operation) (f : Format) (aa : Nat) (b c : Bool) : Prop :=
  rom op = some ⟨o, f, aa, c⟩ ∧ opAA op = aa ∧ opB op = b ∧ opC op = c

/-- The opcode byte `op` lies at the pc of a core that takes steps, and its `n` operand bytes do not all lie in memory. -/
def DoesNotFit (op : Byte) (n : Nat) (s : State) : Prop :=
  s.TakesSteps ∧ s.pc.toNat ≤ 255 ∧ s.mem.read s.pc.toNat = op ∧ 255 < s.pc.toNat + n

/-- The over-fetch check does not stop the step (40_execution_cycle.md R57). -/
def OverfetchPasses (s : State) : Prop := s.params.overfetchFault = false ∨ s.pc.toNat ≤ 253

/-! ### The invariant -/

/-- What the latch may hold together (60_exceptions.md R89-R95): the info that each cause records. -/
def LatchLegal : FaultCause → Word9 → Prop
  | .none, info => info = 0
  | .illegalOpcode, info => info.toNat ≤ 255 ∧ rom (BitVec.ofNat 8 info.toNat) = Option.none
  | .illegalRegister, info => 8 ≤ info.toNat ∧ info.toNat ≤ 255
  | .addressRange, info => info = 256
  | .stackOverflow, info => info = 0
  | .stackUnderflow, info => info = 255
  | .aluUnsupported, _ => False

/-- What holds in every state a run reaches. -/
structure State.Inv (s : State) : Prop where
  /-- Memory keeps its canonical form: every listed address is below 256 (20_memory.md R32). -/
  memWf : s.mem.wf
  /-- The pc reaches 0..256 only (10_state.md R14). -/
  pcRange : s.pc.toNat ≤ 256
  /-- FL is 0b000 or has exactly one bit set, but for the free value it may start at (10_state.md R16, R28). -/
  flLegal : s.flUnwritten = false → s.fl = 0b000 ∨ s.fl = 0b100 ∨ s.fl = 0b010 ∨ s.fl = 0b001
  /-- The latch is legal for its cause (60_exceptions.md R89). -/
  latchLegal : LatchLegal s.faultCause s.faultInfo
  /-- The latch holds a cause exactly in Faulted (10_state.md R18, 41_system.md R66). -/
  latchIffFaulted : s.faultCause = .none ↔ s.run ≠ .faulted
  /-- UnwrittenRead is no hardware fault and no halt: the run state keeps its value (10_state.md R28). -/
  endsOnce : s.unwrittenRead = true → s.run = .running
  /-- A core that takes no step has out_valid at 0 (41_system.md R67, 00_scope.md R9). -/
  stoppedPort : ¬ s.TakesSteps → s.outPort = none
  /-- What the output port presents is the last byte of the stream (42_data_output.md R70). -/
  portIsLast : ∀ v, s.outPort = some v → s.out.getLast? = some v
  /-- With RESET_REGS_DEFINED every register and FL hold a value, and no step reads one that does not (00_scope.md R9,
  10_state.md R28). -/
  allHeld : s.params.resetRegsDefined = true → (∀ r, s.holds r = true) ∧ s.flUnwritten = false ∧ s.unwrittenRead = false
  /-- While rst was 1 at the last edge the core is in the reset state, but for memory (10_state.md R21, R28). -/
  heldInReset : s.rstSeen = true → s = { State.resetWith s.params s.resets with mem := s.mem, rstSeen := true }

/-! ### Sequences and runs -/

/-- Instructions executed one after the other, each on the state the one before left. -/
def execAll : List Instr → State → Result
  | [], s => .next s
  | i :: is, s =>
    match exec i s with
    | .next t => execAll is t
    | .fault r => .fault r
    | .refused r => .refused r

/-- A run: steps taken one at a time (40_execution_cycle.md R65). -/
def runSteps : Nat → State → Result
  | 0, s => .next s
  | k + 1, s =>
    match step s with
    | .next t => runSteps k t
    | .fault r => .fault r
    | .refused r => .refused r

/-- The run from `s` ends in `t`: the first state that takes no step, held from then on (70_reset_and_hazards.md R112,
41_system.md R67, 00_scope.md R9). -/
def Ends (s t : State) : Prop := ∃ k, runSteps k s = .next t ∧ ¬ t.TakesSteps

end Sys2Proof.Machine
end

