-- ==== Sys2Proof/Certificates/Slice0/Obligations.lean ====
section
/-! DEFINITION. The statements for the provers, each with the rule of spec/ it comes from. -/

open Sys2Proof Sys2Proof.Machine

/-! ### Encoding -/

/-- DECODE AND ENCODE AGREE, in both directions, on every instruction with every operand byte (30_encoding.md R44, R45,
R48, R50): bytes decode to an instruction exactly when they are its encoding followed by the rest. So no bit of an
encoding is dropped, no byte past the instruction is looked at, and each instruction has one encoding. -/
def Obligations.DecodeInvertsEncode : Prop :=
  ∀ (bs : List Byte) (i : Instr) (rest : List Byte), decode bs = .ok (i, rest) ↔ bs = encode i ++ rest

/-- Words written out from the opcode map's binary column (30_encoding.md R48), one or more per family. -/
def Obligations.WrittenOutWordsDecode : Prop :=
  decode [0b00000001] = .ok (.hlt, []) ∧
    decode [0b10000010, 0b00000000, 0b00001000] = .ok (.ldi 0 8, []) ∧
    decode [0b01000111, 0b00000101] = .ok (.prn 5, []) ∧
    decode [0b10100010, 0b00000010, 0b00000011] = .ok (.mul 2 3, []) ∧
    decode [0b10100000, 0b00000111, 0b00000001] = .ok (.add 7 1, []) ∧
    decode [0b10100111, 0b00000001, 0b00000010] = .ok (.cmp 1 2, []) ∧
    decode [0b01000101, 0b00000110] = .ok (.push 6, []) ∧
    decode [0b01010000, 0b00000001] = .ok (.call 1, []) ∧
    decode [0b01010101, 0b00000011] = .ok (.jeq 3, []) ∧
    decode [0b01010110, 0b00000100] = .ok (.jne 4, [])

/-- Each valid entry's operand count and sets-PC bit are the AA and C bits of its own index, the count is 0, 1 or 2, and
B is 1 exactly for MUL, ADD and CMP (30_encoding.md R41, R42, R43, R47). -/
def Obligations.OpcodeBitsGiveCountAndSetsPc : Prop :=
  ∀ (op : Byte) (e : RomEntry), rom op = some e →
    e.count = opAA op ∧ e.setsPc = opC op ∧ e.count ≤ 2 ∧
      (opB op = true ↔ e.operation = .mul ∨ e.operation = .add ∨ e.operation = .cmp)

/-- Thirteen opcode bytes are valid and 243 are not; 0x00 and every byte with AA = 3 are invalid
(30_encoding.md R47, R49). -/
def Obligations.ThirteenOpcodesAreValid : Prop :=
  ((List.range 256).filter fun n => (rom (BitVec.ofNat 8 n)).isSome).length = 13 ∧
    ((List.range 256).filter fun n => (rom (BitVec.ofNat 8 n)).isNone).length = 243 ∧
    rom 0x00 = none ∧ ∀ op : Byte, opAA op = 3 → rom op = none

/-! ### The step -/

/-- A step runs the instruction whose bytes lie at the pc: it is exec of that instruction on the state with the output
pulse of the step before gone (40_execution_cycle.md R61, R64). -/
def Obligations.StepRunsTheInstructionAtPc : Prop :=
  ∀ (i : Instr) (s : State), s.TakesSteps → LiesAtPc i s → OverfetchPasses s → step s = exec i s.beginStep

/-- The step follows what the bytes from the pc on decode to, case by case: run it, ILLEGAL_OPCODE with the opcode
byte, or ADDRESS_RANGE with 256 where memory ends before the operands do (40_execution_cycle.md R58, R59, R64). -/
def Obligations.StepFollowsTheBytesAtPc : Prop :=
  ∀ s : State, s.TakesSteps → s.pc.toNat ≤ 255 → OverfetchPasses s →
    match decode (bytesFromPc s) with
    | .ok (i, _) => step s = exec i s.beginStep
    | .error (.illegalOpcode op) =>
      op = s.mem.read s.pc.toNat ∧ EntersFault s.beginStep (step s) .illegalOpcode (zext9 op)
    | .error .truncated => EntersFault s.beginStep (step s) .addressRange 256
    | .error .noBytes => False

/-- An opcode fetch past the last cell raises ADDRESS_RANGE with the pc as info (40_execution_cycle.md R56; the spec's
decision D2). -/
def Obligations.FetchPastTheEndFaults : Prop :=
  ∀ s : State, s.TakesSteps → 255 < s.pc.toNat → EntersFault s.beginStep (step s) .addressRange s.pc

/-- With OVERFETCH_FAULT every instruction at 254 or 255 faults, whatever its bytes, before its opcode is decoded
(40_execution_cycle.md R57; the spec's decision D3). -/
def Obligations.OverfetchFaultsBeforeDecode : Prop :=
  ∀ s : State, s.TakesSteps → s.params.overfetchFault = true → 254 ≤ s.pc.toNat → s.pc.toNat ≤ 255 →
    EntersFault s.beginStep (step s) .addressRange 256

/-- An opcode byte whose ROM entry is invalid, 0x00 among them, raises ILLEGAL_OPCODE (code 1) and records the byte
(60_exceptions.md R90). -/
def Obligations.InvalidOpcodeFaults : Prop :=
  FaultCause.illegalOpcode.code = 1 ∧ rom 0x00 = none ∧
    ∀ s : State, s.TakesSteps → s.pc.toNat ≤ 255 → OverfetchPasses s →
      rom (s.mem.read s.pc.toNat) = none →
      EntersFault s.beginStep (step s) .illegalOpcode (zext9 (s.mem.read s.pc.toNat))

/-- A valid opcode whose operand bytes do not all lie in memory raises ADDRESS_RANGE with 256, whatever the over-fetch
parameter (40_execution_cycle.md R59; the spec's decision D2). -/
def Obligations.OperandPastTheEndFaults : Prop :=
  ∀ (s : State) (e : RomEntry), s.TakesSteps → s.pc.toNat ≤ 255 → rom (s.mem.read s.pc.toNat) = some e →
    255 < s.pc.toNat + e.count → EntersFault s.beginStep (step s) .addressRange 256

/-- A register byte above 7 raises ILLEGAL_REGISTER with the byte as info, the first in operand order winning, before
every check and effect of the instruction's own: a JEQ that would not jump and a PUSH at SP = 0 included
(40_execution_cycle.md R60, 60_exceptions.md R91, R96; the spec's decision D4). -/
def Obligations.FirstBadRegisterByteFaults : Prop :=
  ∀ (i : Instr) (s : State) (b : Byte), i.registerBytes.find? (fun x => !isRegisterByte x) = some b →
    EntersFault s (exec i s) .illegalRegister (zext9 b)

/-- A stopped core holds every state element unchanged and out_valid at 0 (41_system.md R67; the spec's decision D22;
that the model's step answers so is log entry 2). -/
def Obligations.StoppedCoreHolds : Prop :=
  ∀ s : State, s.Inv → s.run ≠ .running → step s = .next s ∧ s.outValidPin = false

/-- Faults are precise: whichever fault a step raises, everything but the run state and the latch is as at the start of
the step, with the output pulse of the step before gone (60_exceptions.md R97; the spec's decision D11). -/
def Obligations.FaultsArePrecise : Prop :=
  ∀ s t : State, s.TakesSteps → step s = .next t → t.run = .faulted →
    t.faultCause ≠ .none ∧ t.outValidPin = false ∧
      EntersFault s.beginStep (step s) t.faultCause t.faultInfo

/-! ### The instructions -/

/-- HLT (41_system.md R66): encoding, effect and frame, completion at every pc of memory, no fault following (HLT at 255
included), and the step's two general faults. That the step after, of the Halted core, answers the held state is the
model's choice for 41_system.md R67's "takes no step" (log entry 2). -/
def Obligations.HltHalts : Prop :=
  OpcodeIs 0x01 .hlt .f0 0 false false ∧ decode [0x01] = .ok (.hlt, []) ∧
    ∀ s : State,
      (s.pc.toNat ≤ 255 → ∃ t, exec .hlt s = .next t ∧ t.run = .halted ∧ t.pc.toNat = s.pc.toNat + 1 ∧
        t.haltedPin = true ∧ UnchangedBut { run := true } s t ∧
        ∃ u, step t = .next u ∧ u.run = .halted ∧ u.pc = t.pc ∧ u.faultCause = s.faultCause) ∧
      (s.TakesSteps → s.pc.toNat = 256 → EntersFault s.beginStep (step s) .addressRange 256) ∧
      (s.TakesSteps → s.params.overfetchFault = true → 254 ≤ s.pc.toNat → s.pc.toNat ≤ 255 →
        EntersFault s.beginStep (step s) .addressRange 256)

/-- LDI (42_data_output.md R68): encoding, the two faults, effect and frame; every immediate and every register, SP
included. -/
def Obligations.LdiLoadsTheImmediate : Prop :=
  OpcodeIs 0x82 .ldi .f2RI 2 false false ∧
    ∀ (a imm : Byte) (s : State), decode [0x82, a, imm] = .ok (.ldi a imm, []) ∧
      (7 < a.toNat → EntersFault s (exec (.ldi a imm) s) .illegalRegister (zext9 a)) ∧
      (DoesNotFit 0x82 2 s → EntersFault s.beginStep (step s) .addressRange 256) ∧
      ∀ r : Reg, a.toNat = r.val → s.pc.toNat ≤ 253 →
        ∃ t, exec (.ldi a imm) s = .next t ∧ t.reg r = imm ∧ t.holds r = true ∧ t.pc.toNat = s.pc.toNat + 3 ∧
          UnchangedBut { regs := [r] } s t

/-- PRN (42_data_output.md R69): encoding, the two faults, effect and frame. -/
def Obligations.PrnEmitsTheRegister : Prop :=
  OpcodeIs 0x47 .prn .f1R 1 false false ∧
    ∀ (a : Byte) (s : State), decode [0x47, a] = .ok (.prn a, []) ∧
      (7 < a.toNat → EntersFault s (exec (.prn a) s) .illegalRegister (zext9 a)) ∧
      (DoesNotFit 0x47 1 s → EntersFault s.beginStep (step s) .addressRange 256) ∧
      ∀ r : Reg, a.toNat = r.val → s.holds r = true → s.pc.toNat ≤ 254 →
        ∃ t, exec (.prn a) s = .next t ∧ t.out = s.out ++ [s.reg r] ∧ t.outPort = some (s.reg r) ∧
          t.pc.toNat = s.pc.toNat + 2 ∧ UnchangedBut { output := true } s t

/-- MUL (43_alu.md R72): encoding, the faults in their order, the product modulo 256 in the destination (SP included),
no flag, and the frame. -/
def Obligations.MulMultipliesModulo256 : Prop :=
  OpcodeIs 0xA2 .mul .f2RR 2 true false ∧
    ∀ (a b : Byte) (s : State), decode [0xA2, a, b] = .ok (.mul a b, []) ∧
      (7 < a.toNat → EntersFault s (exec (.mul a b) s) .illegalRegister (zext9 a)) ∧
      (a.toNat ≤ 7 → 7 < b.toNat → EntersFault s (exec (.mul a b) s) .illegalRegister (zext9 b)) ∧
      (DoesNotFit 0xA2 2 s → EntersFault s.beginStep (step s) .addressRange 256) ∧
      ∀ ra rb : Reg, a.toNat = ra.val → b.toNat = rb.val → s.holds ra = true → s.holds rb = true →
        s.pc.toNat ≤ 253 →
        ∃ t, exec (.mul a b) s = .next t ∧
          (t.reg ra).toNat = (s.reg ra).toNat * (s.reg rb).toNat % 256 ∧ t.pc.toNat = s.pc.toNat + 3 ∧
          UnchangedBut { regs := [ra] } s t

/-- ADD (43_alu.md R73): encoding, the faults in their order, the sum modulo 256 in the destination (SP included), no
flag, and the frame. -/
def Obligations.AddAddsModulo256 : Prop :=
  OpcodeIs 0xA0 .add .f2RR 2 true false ∧
    ∀ (a b : Byte) (s : State), decode [0xA0, a, b] = .ok (.add a b, []) ∧
      (7 < a.toNat → EntersFault s (exec (.add a b) s) .illegalRegister (zext9 a)) ∧
      (a.toNat ≤ 7 → 7 < b.toNat → EntersFault s (exec (.add a b) s) .illegalRegister (zext9 b)) ∧
      (DoesNotFit 0xA0 2 s → EntersFault s.beginStep (step s) .addressRange 256) ∧
      ∀ ra rb : Reg, a.toNat = ra.val → b.toNat = rb.val → s.holds ra = true → s.holds rb = true →
        s.pc.toNat ≤ 253 →
        ∃ t, exec (.add a b) s = .next t ∧
          (t.reg ra).toNat = ((s.reg ra).toNat + (s.reg rb).toNat) % 256 ∧ t.pc.toNat = s.pc.toNat + 3 ∧
          UnchangedBut { regs := [ra] } s t

/-- CMP (43_alu.md R74): encoding, the faults in their order, exactly the flag of the unsigned order, no register, and
the frame. -/
def Obligations.CmpSetsOneFlag : Prop :=
  OpcodeIs 0xA7 .cmp .f2RR 2 true false ∧
    ∀ (a b : Byte) (s : State), decode [0xA7, a, b] = .ok (.cmp a b, []) ∧
      (7 < a.toNat → EntersFault s (exec (.cmp a b) s) .illegalRegister (zext9 a)) ∧
      (a.toNat ≤ 7 → 7 < b.toNat → EntersFault s (exec (.cmp a b) s) .illegalRegister (zext9 b)) ∧
      (DoesNotFit 0xA7 2 s → EntersFault s.beginStep (step s) .addressRange 256) ∧
      ∀ ra rb : Reg, a.toNat = ra.val → b.toNat = rb.val → s.holds ra = true → s.holds rb = true →
        s.pc.toNat ≤ 253 →
        ∃ t, exec (.cmp a b) s = .next t ∧
          ((s.reg ra).toNat < (s.reg rb).toNat → t.fl = 0b100) ∧
          ((s.reg rb).toNat < (s.reg ra).toNat → t.fl = 0b010) ∧
          (s.reg ra = s.reg rb → t.fl = 0b001) ∧
          (t.flagL = true ↔ (s.reg ra).toNat < (s.reg rb).toNat) ∧
          (t.flagG = true ↔ (s.reg rb).toNat < (s.reg ra).toNat) ∧
          (t.flagE = true ↔ s.reg ra = s.reg rb) ∧
          t.flUnwritten = false ∧ t.pc.toNat = s.pc.toNat + 3 ∧ UnchangedBut { fl := true } s t

/-- PUSH (44_stack.md R78): the faults, and the push: SP down by one, the register stored at the new SP, no other byte
changed. The two clauses the spec decides itself: STACK_OVERFLOW at SP = 0 (D5), and PUSH R7 storing the decremented SP
(D16; log entry 12). -/
def Obligations.PushStoresBelowSp : Prop :=
  OpcodeIs 0x45 .push .f1R 1 false false ∧
    ∀ (a : Byte) (s : State), decode [0x45, a] = .ok (.push a, []) ∧
      (7 < a.toNat → EntersFault s (exec (.push a) s) .illegalRegister (zext9 a)) ∧
      (DoesNotFit 0x45 1 s → EntersFault s.beginStep (step s) .addressRange 256) ∧
      ∀ r : Reg, a.toNat = r.val →
        (s.sp = 0 → EntersFault s (exec (.push a) s) .stackOverflow 0) ∧
        (s.sp ≠ 0 → s.holds r = true → s.mem.wf → s.pc.toNat ≤ 254 →
          ∃ t, exec (.push a) s = .next t ∧ t.sp.toNat = s.sp.toNat - 1 ∧
            (r ≠ 7 → t.mem.read (s.sp - 1).toNat = s.reg r) ∧ (r = 7 → t.mem.read (s.sp - 1).toNat = s.sp - 1) ∧
            t.pc.toNat = s.pc.toNat + 2 ∧ UnchangedBut { regs := [7], cells := [(s.sp - 1).toNat] } s t)

/-- POP (44_stack.md R79): the faults, and the pop: the byte at SP loaded, SP up by one, memory unchanged, an empty
stack no error. The clauses the spec decides itself: STACK_UNDERFLOW (D6), and POP R7 leaving the popped value plus 1
(D17; log entry 12). -/
def Obligations.PopLoadsFromSp : Prop :=
  OpcodeIs 0x46 .pop .f1R 1 false false ∧
    ∀ (a : Byte) (s : State), decode [0x46, a] = .ok (.pop a, []) ∧
      (7 < a.toNat → EntersFault s (exec (.pop a) s) .illegalRegister (zext9 a)) ∧
      (DoesNotFit 0x46 1 s → EntersFault s.beginStep (step s) .addressRange 256) ∧
      (∀ r : Reg, a.toNat = r.val → r ≠ 7 →
        (s.sp = 255 → EntersFault s (exec (.pop a) s) .stackUnderflow 255) ∧
        (s.sp ≠ 255 → s.pc.toNat ≤ 254 →
          ∃ t, exec (.pop a) s = .next t ∧ t.reg r = s.mem.read s.sp.toNat ∧ t.holds r = true ∧
            t.sp.toNat = s.sp.toNat + 1 ∧ t.pc.toNat = s.pc.toNat + 2 ∧ UnchangedBut { regs := [r, 7] } s t)) ∧
      (a.toNat = 7 →
        (s.mem.read s.sp.toNat = 255 → EntersFault s (exec (.pop a) s) .stackUnderflow 255) ∧
        (s.mem.read s.sp.toNat ≠ 255 → s.pc.toNat ≤ 254 →
          ∃ t, exec (.pop a) s = .next t ∧ t.sp.toNat = (s.mem.read s.sp.toNat).toNat + 1 ∧
            t.pc.toNat = s.pc.toNat + 2 ∧ UnchangedBut { regs := [7] } s t))

/-- CALL (45_control_transfer.md R82): the faults in their order, and the call: pc + 2 stored below SP, the jump to
`x[a]`. The clauses the spec decides itself: ADDRESS_RANGE at 254 (D7), STACK_OVERFLOW (D5), and CALL R7 jumping to the
decremented SP (D18; log entry 12). -/
def Obligations.CallPushesTheReturnAddress : Prop :=
  OpcodeIs 0x50 .call .f1R 1 false true ∧
    ∀ (a : Byte) (s : State), decode [0x50, a] = .ok (.call a, []) ∧
      (7 < a.toNat → EntersFault s (exec (.call a) s) .illegalRegister (zext9 a)) ∧
      (DoesNotFit 0x50 1 s → EntersFault s.beginStep (step s) .addressRange 256) ∧
      ∀ r : Reg, a.toNat = r.val →
        (s.pc.toNat = 254 → EntersFault s (exec (.call a) s) .addressRange 256) ∧
        (s.pc.toNat ≤ 253 → s.sp = 0 → EntersFault s (exec (.call a) s) .stackOverflow 0) ∧
        (s.pc.toNat ≤ 253 → s.sp ≠ 0 → s.holds r = true → s.mem.wf →
          ∃ t, exec (.call a) s = .next t ∧ t.sp.toNat = s.sp.toNat - 1 ∧
            (t.mem.read (s.sp - 1).toNat).toNat = s.pc.toNat + 2 ∧
            (r ≠ 7 → t.pc.toNat = (s.reg r).toNat) ∧ (r = 7 → t.pc.toNat = s.sp.toNat - 1) ∧
            UnchangedBut { regs := [7], cells := [(s.sp - 1).toNat] } s t)

/-- RET (45_control_transfer.md R83): STACK_UNDERFLOW at SP = 255 (the spec's decision D6), otherwise the pc from the
byte at SP and SP up by one, memory unchanged, whether or not a CALL came before. -/
def Obligations.RetPopsThePc : Prop :=
  OpcodeIs 0x11 .ret .f0 0 false true ∧ decode [0x11] = .ok (.ret, []) ∧
    ∀ s : State,
      (s.sp = 255 → EntersFault s (exec .ret s) .stackUnderflow 255) ∧
      (s.sp ≠ 255 → ∃ t, exec .ret s = .next t ∧ t.sp.toNat = s.sp.toNat + 1 ∧
        t.pc.toNat = (s.mem.read s.sp.toNat).toNat ∧ UnchangedBut { regs := [7] } s t)

/-- JEQ (45_control_transfer.md R84): encoding, the faults, the jump when E is 1, pc + 2 when it is 0, and the fault of
the step after a JEQ at 254 that is not taken. -/
def Obligations.JeqJumpsWhenEqual : Prop :=
  OpcodeIs 0x55 .jeq .f1R 1 false true ∧
    ∀ (a : Byte) (s : State), decode [0x55, a] = .ok (.jeq a, []) ∧
      (7 < a.toNat → EntersFault s (exec (.jeq a) s) .illegalRegister (zext9 a)) ∧
      (DoesNotFit 0x55 1 s → EntersFault s.beginStep (step s) .addressRange 256) ∧
      ∀ r : Reg, a.toNat = r.val → s.flUnwritten = false →
        (s.flagE = true → s.holds r = true →
          ∃ t, exec (.jeq a) s = .next t ∧ t.pc.toNat = (s.reg r).toNat ∧ UnchangedBut {} s t) ∧
        (s.flagE = false → s.pc.toNat ≤ 254 →
          ∃ t, exec (.jeq a) s = .next t ∧ t.pc.toNat = s.pc.toNat + 2 ∧ UnchangedBut {} s t ∧
            (s.TakesSteps → s.pc.toNat = 254 → EntersFault t.beginStep (step t) .addressRange 256))

/-- JNE (45_control_transfer.md R85): encoding, the faults, the jump when E is 0, pc + 2 when it is 1; L and G play no
part. -/
def Obligations.JneJumpsWhenNotEqual : Prop :=
  OpcodeIs 0x56 .jne .f1R 1 false true ∧
    ∀ (a : Byte) (s : State), decode [0x56, a] = .ok (.jne a, []) ∧
      (7 < a.toNat → EntersFault s (exec (.jne a) s) .illegalRegister (zext9 a)) ∧
      (DoesNotFit 0x56 1 s → EntersFault s.beginStep (step s) .addressRange 256) ∧
      ∀ r : Reg, a.toNat = r.val → s.flUnwritten = false →
        (s.flagE = false → s.holds r = true →
          ∃ t, exec (.jne a) s = .next t ∧ t.pc.toNat = (s.reg r).toNat ∧ UnchangedBut {} s t) ∧
        (s.flagE = true → s.pc.toNat ≤ 254 →
          ∃ t, exec (.jne a) s = .next t ∧ t.pc.toNat = s.pc.toNat + 2 ∧ UnchangedBut {} s t)

/-- JMP (45_control_transfer.md R86): encoding, the faults, the jump to any address a register holds, and that the run of
a JMP to itself never ends, by a fault or otherwise. -/
def Obligations.JmpJumpsToTheRegister : Prop :=
  OpcodeIs 0x54 .jmp .f1R 1 false true ∧
    ∀ (a : Byte) (s : State), decode [0x54, a] = .ok (.jmp a, []) ∧
      (7 < a.toNat → EntersFault s (exec (.jmp a) s) .illegalRegister (zext9 a)) ∧
      (DoesNotFit 0x54 1 s → EntersFault s.beginStep (step s) .addressRange 256) ∧
      ∀ r : Reg, a.toNat = r.val → s.holds r = true →
        ∃ t, exec (.jmp a) s = .next t ∧ t.pc.toNat = (s.reg r).toNat ∧ UnchangedBut {} s t ∧
          ((s.reg r).toNat = s.pc.toNat →
            t.pc = s.pc ∧ (s.TakesSteps → LiesAtPc (.jmp a) s → OverfetchPasses s → ¬ ∃ u, Ends s u))

/-! ### Whole-machine rules -/

/-- No instruction but CMP writes FL; an instruction that faults writes it least of all (10_state.md R16, 43_alu.md
R76). -/
def Obligations.OnlyCmpWritesFlags : Prop :=
  ∀ (i : Instr) (s t : State), exec i s = .next t → (∀ a b, i ≠ .cmp a b) →
    t.fl = s.fl ∧ t.flUnwritten = s.flUnwritten

/-- The only instructions that write memory are PUSH and CALL, and they write one cell, the one below SP
(20_memory.md R31). -/
def Obligations.OnlyPushAndCallWriteMemory : Prop :=
  ∀ (i : Instr) (s t : State), exec i s = .next t →
    ((∀ a, i ≠ .push a) → (∀ a, i ≠ .call a) → t.mem = s.mem) ∧
      ∀ c : Nat, c ≠ (s.sp - 1).toNat → t.mem.read c = s.mem.read c

/-- No instruction but PRN touches the output stream or the output port, and a PRN appends at most one byte
(10_state.md R24, R27, 42_data_output.md R70). -/
def Obligations.OnlyPrnEmits : Prop :=
  ∀ (i : Instr) (s t : State), exec i s = .next t →
    ((∀ a, i ≠ .prn a) → t.out = s.out ∧ t.outPort = s.outPort) ∧
      (t.out = s.out ∨ ∃ v, t.out = s.out ++ [v] ∧ t.outPort = some v)

/-- HLT alone sets Halted; an instruction leaves Running only so or by a fault, and one that does not fault leaves the
latch alone (10_state.md R17, R18). -/
def Obligations.OnlyHltHalts : Prop :=
  ∀ (i : Instr) (s t : State), s.run = .running → exec i s = .next t →
    (t.run = .halted ↔ i = .hlt) ∧
      (t.run ≠ .faulted → t.faultCause = s.faultCause ∧ t.faultInfo = s.faultInfo)

/-- Each instruction writes no general register but those of the table of 10_state.md R12, to which
45_control_transfer.md R83 adds the SP of RET (log entry 21). -/
def Obligations.RegistersWrittenFollowTheTable : Prop :=
  ∀ (i : Instr) (s t : State) (r : Reg), exec i s = .next t → r.val ∉ writtenRegs i →
    t.reg r = s.reg r ∧ t.holds r = s.holds r

/-- With sets-PC bit 0 the pc ends past the instruction, whatever the operation did; only a fault, or an UnwrittenRead, leaves
it (40_execution_cycle.md R62, 00_scope.md R9). -/
def Obligations.PcAdvancesPastTheInstruction : Prop :=
  ∀ (i : Instr) (s t : State) (op : Byte), (encode i).head? = some op → opC op = false →
    s.pc.toNat + (encode i).length ≤ 256 → exec i s = .next t → t.run ≠ .faulted → t.unwrittenRead = false →
    t.pc.toNat = s.pc.toNat + (encode i).length

/-- No step and no reset edge changes the core's parameters (00_scope.md R5; log entry 3). -/
def Obligations.ParametersNeverChange : Prop :=
  (∀ s t : State, step s = .next t → t.params = s.params) ∧
    ∀ (s : State) (p : LoadPins), (s.resetEdge p).params = s.params

/-! ### The invariant -/

/-- The invariant holds after every reset, for both values of each parameter (10_state.md R28). -/
def Obligations.ResetStateMeetsInvariant : Prop :=
  State.reset.Inv ∧ ∀ (p : Config.Params) (n : Nat), (State.resetWith p n).Inv

/-- EVERY STEP KEEPS THE INVARIANT: memory canonical, pc at most 256, FL legal once it holds a value, the latch legal for
its cause and set exactly in Faulted, out_valid at 0 when stopped, an UnwrittenRead apart from Halted and Faulted, every
register held and no UnwrittenRead when RESET_REGS_DEFINED. -/
def Obligations.StepKeepsInvariant : Prop :=
  ∀ s t : State, s.Inv → step s = .next t → t.Inv

/-- A reset edge, in any state and with any move of the load port, keeps the invariant
(70_reset_and_hazards.md R106, R107). -/
def Obligations.ResetEdgeKeepsInvariant : Prop :=
  ∀ (s : State) (p : LoadPins), s.Inv → (s.resetEdge p).Inv

/-- The model never gets stuck: from EVERY state a step answers a next state, and a run goes on for any number of steps,
so each instruction is executed or ends in one of the outcomes the spec describes, whatever its operands (00_scope.md R9,
40_execution_cycle.md R65). That fault entry, an UnwrittenRead and the hold of a stopped core are next states is the
model's choice (log entries 1, 2 and 22). -/
def Obligations.EveryStepAnswersNext : Prop :=
  (∀ s : State, ∃ t, step s = .next t) ∧ ∀ (k : Nat) (s : State), ∃ t, runSteps k s = .next t

/-- With RESET_REGS_DEFINED a read of an unwritten register or FL stops nothing: a step from a state of the invariant leaves
a core that takes steps, or HLT halted it, or it faulted (00_scope.md R9, 10_state.md R28). -/
def Obligations.DefinedRegistersNeverEndTheRun : Prop :=
  ∀ s t : State, s.Inv → s.params.resetRegsDefined = true → s.TakesSteps → step s = .next t →
    t.unwrittenRead = false ∧ (t.TakesSteps ∨ t.run = .halted ∨ t.run = .faulted)

/-- A step ends in exactly one of the outcomes of 00_scope.md R9, and each is what R9 says: a next state is still Running; a
fault is fault entry; an UnwrittenRead, possible only with RESET_REGS_DEFINED = false, is treated like a fault, so nothing
of the instruction's effect is there (that it is a next state with a mark is log entry 22). -/
def Obligations.StepEndsInOneOutcome : Prop :=
  ∀ s t : State, s.Inv → s.TakesSteps → step s = .next t →
    (outcomeOf t = .unwrittenRead →
      t = { s.beginStep with unwrittenRead := true } ∧ t.params.resetRegsDefined = false) ∧
      (outcomeOf t = .halted ↔ t.run = .halted) ∧ (outcomeOf t = .faulted ↔ t.run = .faulted) ∧
      (outcomeOf t = .faulted → EntersFault s.beginStep (step s) t.faultCause t.faultInfo) ∧
      (outcomeOf t = .nextState ↔ t.TakesSteps)

/-- An instruction that reads a register or FL that holds no value ends in UnwrittenRead, treated like a fault: nothing
else changes. It does so exactly when it reads one and raises no fault (00_scope.md R9, 10_state.md R28, the option of D8 and
D9; which reads count and how they rank among the checks is log entry 6, the mark in a next state log entry 22). -/
def Obligations.UnwrittenReadsEndTheStep : Prop :=
  ∀ (i : Instr) (s t : State), s.TakesSteps → exec i s = .next t →
    (t.unwrittenRead = true ↔ t.run ≠ .faulted ∧ ReadsUnwritten i s) ∧
      (t.unwrittenRead = true → t = { s with unwrittenRead := true })

/-- The same for each instruction that reads one, on operands whose checks pass (10_state.md R28, the option of D8 and D9;
log entries 6 and 22): it completes nowhere else on such a register, so this covers the forms that the statements of the
instructions leave to it. -/
def Obligations.UnwrittenOperandsEndTheStep : Prop :=
  ∀ (a b : Byte) (ra rb : Reg) (s : State), a.toNat = ra.val → b.toNat = rb.val →
    let ended : Result := .next { s with unwrittenRead := true }
    (s.holds ra = false →
      exec (.prn a) s = ended ∧ exec (.jmp a) s = ended ∧ (s.sp ≠ 0 → exec (.push a) s = ended) ∧
        (s.sp ≠ 0 → s.pc.toNat ≤ 253 → exec (.call a) s = ended)) ∧
      (s.holds ra = false ∨ s.holds rb = false →
        exec (.mul a b) s = ended ∧ exec (.add a b) s = ended ∧ exec (.cmp a b) s = ended) ∧
      (s.flUnwritten = true → exec (.jeq a) s = ended ∧ exec (.jne a) s = ended) ∧
      (s.flUnwritten = false → s.holds ra = false →
        (s.flagE = true → exec (.jeq a) s = ended) ∧ (s.flagE = false → exec (.jne a) s = ended))

/-- A step that ends in UnwrittenRead ends the run, as a fault does: everything is held from then on, with out_valid at 0,
until a reset edge (00_scope.md R9, 10_state.md R28, 93_implementation_defined.md U12; log entry 22). -/
def Obligations.UnwrittenReadEndsTheRun : Prop :=
  ∀ s t : State, s.Inv → s.TakesSteps → step s = .next t → t.unwrittenRead = true →
    t.outValidPin = false ∧ t.run = .running ∧ t.faultCause = .none ∧ (∀ k, runSteps k t = .next t) ∧ Ends s t ∧
      ∀ p : LoadPins, (t.resetEdge p).TakesSteps

/-- An instruction's write gives a register a value, and CMP's gives FL one (10_state.md R28: "before an instruction has
written it"; the marks that say so are log entry 5). -/
def Obligations.WritingGivesAValue : Prop :=
  ∀ (i : Instr) (s t : State), s.run = .running → exec i s = .next t → t.run ≠ .faulted → t.unwrittenRead = false →
    (∀ r : Reg, r.val ∈ writtenRegs i → t.holds r = true) ∧ ∀ a b, i = .cmp a b → t.flUnwritten = false

/-! ### Reset and launch -/

/-- The reset values (10_state.md R28). The zeros of R0 to R6 and of FL are the spec's decisions D8 and D9 (log entry
4); with RESET_REGS_DEFINED false those hold no value, and nothing is said of what they start at. -/
def Obligations.ResetValues : Prop :=
  ∀ (p : Config.Params) (n : Nat),
    let s := State.resetWith p n
    s.sp = 0xF4 ∧ s.pc = 0 ∧ (p.resetRegsDefined = true → (∀ r : Reg, r ≠ 7 → s.reg r = 0) ∧ s.fl = 0b000) ∧
      (∀ r : Reg, r ≠ 7 → s.holds r = p.resetRegsDefined) ∧ s.flUnwritten = (!p.resetRegsDefined) ∧
      s.unwrittenRead = false ∧ s.run = .running ∧ s.faultCausePin = 0 ∧ s.faultInfoPin = 0 ∧
      (∀ a, s.mem.read a = 0) ∧ s.out = [] ∧ s.outValidPin = false ∧ s.haltedPin = false ∧ s.faultedPin = false

/-- A reset edge in any state: registers to their reset values, the output stream anew, memory cleared by the first edge
of the period before the load port's write and kept by the later ones (70_reset_and_hazards.md R106, R107). -/
def Obligations.ResetEdgeSetsTheState : Prop :=
  ∀ (s : State) (p : LoadPins), s.mem.wf →
    let t := s.resetEdge p
    t = { State.resetWith s.params (s.resets + 1) with mem := t.mem, rstSeen := true } ∧
      ∀ a : Nat, t.mem.read a =
        if p.loadWe = true ∧ a = p.loadAddr.toNat then p.loadData
        else if s.rstSeen = true then s.mem.read a else 0

/-- LAUNCH: whatever the state before, a reset period that loads an image of at most 256 bytes and release leave the
reset values, the image in memory from address 0 and 0 in every other cell (70_reset_and_hazards.md R108, R109). -/
def Obligations.LaunchLoadsTheImage : Prop :=
  ∀ (s : State) (img : List Byte), img.length ≤ 256 →
    ∃ t, launch s img = .next t ∧ t = { State.resetWith s.params t.resets with mem := t.mem } ∧ t.mem.wf ∧
      ∀ a : Nat, t.mem.read a = img.getD a 0

/-- An image of more than 256 bytes is refused, and an empty one is a launch whose first step raises ILLEGAL_OPCODE with
info 0 (70_reset_and_hazards.md R110). -/
def Obligations.RefusedAndEmptyLaunches : Prop :=
  (∀ (s : State) (img : List Byte), 256 < img.length → launch s img = .refused .imageTooLong) ∧
    ∀ s : State, ∃ t, launch s [] = .next t ∧ EntersFault t (step t) .illegalOpcode 0

/-- Two canonical memories that read the same everywhere are the same data (the model's representation, log entry 13, of
the 256 cells of 10_state.md R20). -/
def Obligations.CanonicalMemoryIsUnique : Prop :=
  ∀ m m' : Memory, m.wf → m'.wf → (∀ a, m.read a = m'.read a) → m = m'

/-! ### Sequences -/

/-- THE STACK LIFO LAW (44_stack.md R80): after `k` pushes and `k` pops, none of R7, with room for them, SP is back and
the pops have loaded the pushed values in reverse order: each register holds the value of the last pop that names it,
or its old value; nothing faults and nothing else but the stacked cells changes. -/
def Obligations.StackLifo : Prop :=
  ∀ (pushes pops : List Reg) (s : State),
    pushes.length = pops.length → (∀ r ∈ pushes, r ≠ 7 ∧ s.holds r = true) → (∀ r ∈ pops, r ≠ 7) →
    pushes.length ≤ s.sp.toNat → s.mem.wf →
    ∃ t, execAll (pushes.map (fun r => .push (BitVec.ofNat 8 r.val)) ++
        pops.map fun r => .pop (BitVec.ofNat 8 r.val)) s = .next t ∧
      t.sp = s.sp ∧ t.run = s.run ∧ t.fl = s.fl ∧ t.out = s.out ∧
      (∀ r : Reg, r ≠ 7 → t.reg r =
        (((pops.zip (pushes.reverse.map s.reg)).reverse.find? fun p => p.1 == r).map Prod.snd).getD (s.reg r)) ∧
      ∀ c : Nat, (c < s.sp.toNat - pushes.length ∨ s.sp.toNat ≤ c) → t.mem.read c = s.mem.read c

/-- A CALL followed by a RET resumes after the CALL with SP and every register as before
(45_control_transfer.md R82, R83). -/
def Obligations.CallThenRetResumes : Prop :=
  ∀ (a : Byte) (r : Reg) (s : State), a.toNat = r.val → s.holds r = true → s.pc.toNat ≤ 253 → s.sp ≠ 0 → s.mem.wf →
    ∃ t u, exec (.call a) s = .next t ∧ exec .ret t = .next u ∧ u.pc.toNat = s.pc.toNat + 2 ∧
      (∀ q : Reg, u.reg q = s.reg q) ∧ u.run = s.run ∧ u.fl = s.fl

/-- After CMP Ra, Rb, JEQ jumps exactly when the registers are equal and JNE exactly when they differ
(43_alu.md R76). -/
def Obligations.CompareThenBranch : Prop :=
  ∀ (a b c : Byte) (ra rb rc : Reg) (s : State), a.toNat = ra.val → b.toNat = rb.val → c.toNat = rc.val →
    s.holds ra = true → s.holds rb = true → s.holds rc = true → s.pc.toNat ≤ 251 →
    ∃ t u v, exec (.cmp a b) s = .next t ∧ exec (.jeq c) t = .next u ∧ exec (.jne c) t = .next v ∧
      u.pc.toNat = (if s.reg ra = s.reg rb then (s.reg rc).toNat else s.pc.toNat + 5) ∧
      v.pc.toNat = (if s.reg ra = s.reg rb then s.pc.toNat + 5 else (s.reg rc).toNat)

/-- The output port: out_valid is 1 after a step exactly when that step was a PRN that completed, with out_data the
byte it appended, at every moment the host looks (10_state.md R24, 42_data_output.md R70; the step as the unit of the
pulse is log entry 8). -/
def Obligations.OutValidPulsesForPrnOnly : Prop :=
  ∀ s t : State, step s = .next t →
    (t.outValidPin = true ↔
      s.TakesSteps ∧ t.TakesSteps ∧ ∃ a rest, s.pc.toNat ≤ 255 ∧ OverfetchPasses s ∧
        decode (bytesFromPc s) = .ok (.prn a, rest)) ∧
      (t.outValidPin = true → ∀ moment, t.out = s.out ++ [t.outDataPin moment]) ∧
      (t.outValidPin = false → t.out = s.out)

/-- The four status outputs, each driven from the state (10_state.md R22): halted and faulted from the run state,
fault_cause and fault_info from the latch. The encodings of the run state and the fault codes are those of 10_state.md R17
and 60_exceptions.md R89 (the spec's decision D10). -/
def Obligations.StatusPinsShowTheState : Prop :=
  (∀ s : State, (s.haltedPin = true ↔ s.run.code = 0b01) ∧ (s.faultedPin = true ↔ s.run.code = 0b10) ∧
    (s.haltedPin = false ∧ s.faultedPin = false ↔ s.run.code = 0b00) ∧
    s.faultCausePin = s.faultCause.code ∧ s.faultInfoPin = s.faultInfo) ∧
    [FaultCause.none, .illegalOpcode, .illegalRegister, .addressRange, .stackOverflow, .stackUnderflow,
      .aluUnsupported].map FaultCause.code = [0, 1, 2, 3, 4, 5, 6]

/-- A push over the byte that is fetched next changes what is fetched: no delay, no fence (20_memory.md R39,
70_reset_and_hazards.md R114). -/
def Obligations.PushIsSeenByTheNextFetch : Prop :=
  ∀ (a : Byte) (r : Reg) (s : State), a.toNat = r.val → r ≠ 7 → s.holds r = true → s.mem.wf → s.pc.toNat ≤ 253 →
    s.sp.toNat = s.pc.toNat + 3 →
    ∃ t, exec (.push a) s = .next t ∧ (bytesFromPc t).head? = some (s.reg r)

/-- Only the instruction's own bytes matter to an instruction that does not read the stack: change any other memory, and
the step gives the same in everything but memory (30_encoding.md R50, 40_execution_cycle.md R57). -/
def Obligations.OtherBytesHaveNoEffect : Prop :=
  ∀ (i : Instr) (rest : List Byte) (s t : State) (m : Memory), s.TakesSteps → s.pc.toNat ≤ 255 →
    OverfetchPasses s → decode (bytesFromPc s) = .ok (i, rest) → i ≠ .ret → (∀ a, i ≠ .pop a) →
    (∀ k, k < (encode i).length → m.read (s.pc.toNat + k) = s.mem.read (s.pc.toNat + k)) →
    step s = .next t →
    ∃ t', step { s with mem := m } = .next t' ∧ t' = { t with mem := t'.mem }

/-- A run ends in one state only: the state it first stops in, by a halt, a fault or an UnwrittenRead, is held
(70_reset_and_hazards.md R112, 40_execution_cycle.md R65; that step answers the held state is log entries 2 and 22). -/
def Obligations.RunEndIsUnique : Prop :=
  ∀ s t t' : State, s.Inv → Ends s t → Ends s t' → t = t'
end

