-- ==== Sys2Proof/Laws/Decode.lean ====
section
/-! SUPPORT. The decode ROM row by row, and that decoding looks at no more than three bytes
(spec 30_encoding.md R48, R50). -/

namespace Sys2Proof

@[simp] theorem rom_hlt : rom 0x01#8 = some ⟨.hlt, .f0, 0, false⟩ := by decide
@[simp] theorem rom_ldi : rom 0x82#8 = some ⟨.ldi, .f2RI, 2, false⟩ := by decide
@[simp] theorem rom_prn : rom 0x47#8 = some ⟨.prn, .f1R, 1, false⟩ := by decide
@[simp] theorem rom_mul : rom 0xA2#8 = some ⟨.mul, .f2RR, 2, false⟩ := by decide
@[simp] theorem rom_add : rom 0xA0#8 = some ⟨.add, .f2RR, 2, false⟩ := by decide
@[simp] theorem rom_push : rom 0x45#8 = some ⟨.push, .f1R, 1, false⟩ := by decide
@[simp] theorem rom_pop : rom 0x46#8 = some ⟨.pop, .f1R, 1, false⟩ := by decide
@[simp] theorem rom_call : rom 0x50#8 = some ⟨.call, .f1R, 1, true⟩ := by decide
@[simp] theorem rom_ret : rom 0x11#8 = some ⟨.ret, .f0, 0, true⟩ := by decide
@[simp] theorem rom_cmp : rom 0xA7#8 = some ⟨.cmp, .f2RR, 2, false⟩ := by decide
@[simp] theorem rom_jeq : rom 0x55#8 = some ⟨.jeq, .f1R, 1, true⟩ := by decide
@[simp] theorem rom_jne : rom 0x56#8 = some ⟨.jne, .f1R, 1, true⟩ := by decide
@[simp] theorem rom_jmp : rom 0x54#8 = some ⟨.jmp, .f1R, 1, true⟩ := by decide

/-- A valid entry is a row of the table, at its own opcode. -/
theorem rom_row {op : Byte} {e : RomEntry} (h : rom op = some e) : (op, e) ∈ romTable := by
  unfold rom at h
  obtain ⟨row, hrow, rfl⟩ := Option.map_eq_some_iff.mp h
  have hop : row.1 = op := by simpa using List.find?_some hrow
  exact hop ▸ List.mem_of_find?_eq_some hrow

/-- Every valid entry has 0, 1 or 2 operand bytes (30_encoding.md R41). -/
theorem rom_count_le {op : Byte} {e : RomEntry} (h : rom op = some e) : e.count ≤ 2 := by
  have all : ∀ row ∈ romTable, row.2.count ≤ 2 := by decide
  exact all _ (rom_row h)

/-- Of the bytes after the opcode only the first two matter. -/
theorem decodeOperands_take (e : RomEntry) (rest : List Byte) :
    (decodeOperands e (rest.take 2)).map Prod.fst = (decodeOperands e rest).map Prod.fst := by
  obtain ⟨o, f, count, c⟩ := e
  match count, rest with
  | 0, _ => rfl
  | 1, [] => rfl
  | 1, [_] => rfl
  | 1, _ :: _ :: _ => rfl
  | 2, [] => rfl
  | 2, [_] => rfl
  | 2, _ :: _ :: _ => rfl
  | n + 3, rest => rfl

/-- Decoding looks at no more than three bytes (30_encoding.md R50). -/
theorem decode_take (bs : List Byte) : (decode (bs.take 3)).map Prod.fst = (decode bs).map Prod.fst := by
  cases bs with
  | nil => rfl
  | cons op rest =>
    simp only [List.take_succ_cons, decode]
    cases rom op with
    | none => rfl
    | some e => exact decodeOperands_take e rest

end Sys2Proof
end

