-- ==== Sys2Proof/Laws/State.lean ====
section
/-! SUPPORT. What each update of State does to each field and to the register accessors: one lemma per field per update,
true by rfl, so that no later proof unfolds a record update. -/

namespace Sys2Proof.Machine.State

/-! ### beginStep -/

@[simp] theorem beginStep_regs (s : State) : (s.beginStep).regs = s.regs := rfl
@[simp] theorem beginStep_pc (s : State) : (s.beginStep).pc = s.pc := rfl
@[simp] theorem beginStep_fl (s : State) : (s.beginStep).fl = s.fl := rfl
@[simp] theorem beginStep_run (s : State) : (s.beginStep).run = s.run := rfl
@[simp] theorem beginStep_faultCause (s : State) : (s.beginStep).faultCause = s.faultCause := rfl
@[simp] theorem beginStep_faultInfo (s : State) : (s.beginStep).faultInfo = s.faultInfo := rfl
@[simp] theorem beginStep_mem (s : State) : (s.beginStep).mem = s.mem := rfl
@[simp] theorem beginStep_out (s : State) : (s.beginStep).out = s.out := rfl
@[simp] theorem beginStep_outPort (s : State) : (s.beginStep).outPort = none := rfl
@[simp] theorem beginStep_rstSeen (s : State) : (s.beginStep).rstSeen = false := rfl
@[simp] theorem beginStep_unwritten (s : State) : (s.beginStep).unwritten = s.unwritten := rfl
@[simp] theorem beginStep_flUnwritten (s : State) : (s.beginStep).flUnwritten = s.flUnwritten := rfl
@[simp] theorem beginStep_params (s : State) : (s.beginStep).params = s.params := rfl
@[simp] theorem beginStep_unwrittenRead (s : State) : (s.beginStep).unwrittenRead = s.unwrittenRead := rfl
@[simp] theorem beginStep_resets (s : State) : (s.beginStep).resets = s.resets := rfl
@[simp] theorem beginStep_reg (s : State) (q : Reg) : (s.beginStep).reg q = s.reg q := rfl
@[simp] theorem beginStep_holds (s : State) (q : Reg) : (s.beginStep).holds q = s.holds q := rfl
@[simp] theorem beginStep_flagE (s : State) : (s.beginStep).flagE = s.flagE := rfl

/-! ### setFl -/

@[simp] theorem setFl_regs (s : State) (v : BitVec 3) : (s.setFl v).regs = s.regs := rfl
@[simp] theorem setFl_pc (s : State) (v : BitVec 3) : (s.setFl v).pc = s.pc := rfl
@[simp] theorem setFl_fl (s : State) (v : BitVec 3) : (s.setFl v).fl = v := rfl
@[simp] theorem setFl_run (s : State) (v : BitVec 3) : (s.setFl v).run = s.run := rfl
@[simp] theorem setFl_faultCause (s : State) (v : BitVec 3) : (s.setFl v).faultCause = s.faultCause := rfl
@[simp] theorem setFl_faultInfo (s : State) (v : BitVec 3) : (s.setFl v).faultInfo = s.faultInfo := rfl
@[simp] theorem setFl_mem (s : State) (v : BitVec 3) : (s.setFl v).mem = s.mem := rfl
@[simp] theorem setFl_out (s : State) (v : BitVec 3) : (s.setFl v).out = s.out := rfl
@[simp] theorem setFl_outPort (s : State) (v : BitVec 3) : (s.setFl v).outPort = s.outPort := rfl
@[simp] theorem setFl_rstSeen (s : State) (v : BitVec 3) : (s.setFl v).rstSeen = s.rstSeen := rfl
@[simp] theorem setFl_unwritten (s : State) (v : BitVec 3) : (s.setFl v).unwritten = s.unwritten := rfl
@[simp] theorem setFl_flUnwritten (s : State) (v : BitVec 3) : (s.setFl v).flUnwritten = false := rfl
@[simp] theorem setFl_params (s : State) (v : BitVec 3) : (s.setFl v).params = s.params := rfl
@[simp] theorem setFl_unwrittenRead (s : State) (v : BitVec 3) : (s.setFl v).unwrittenRead = s.unwrittenRead := rfl
@[simp] theorem setFl_resets (s : State) (v : BitVec 3) : (s.setFl v).resets = s.resets := rfl
@[simp] theorem setFl_reg (s : State) (v : BitVec 3) (q : Reg) : (s.setFl v).reg q = s.reg q := rfl
@[simp] theorem setFl_holds (s : State) (v : BitVec 3) (q : Reg) : (s.setFl v).holds q = s.holds q := rfl

/-! ### endUnwrittenRead -/

@[simp] theorem endUnwrittenRead_regs (s : State) : (s.endUnwrittenRead).regs = s.regs := rfl
@[simp] theorem endUnwrittenRead_pc (s : State) : (s.endUnwrittenRead).pc = s.pc := rfl
@[simp] theorem endUnwrittenRead_fl (s : State) : (s.endUnwrittenRead).fl = s.fl := rfl
@[simp] theorem endUnwrittenRead_run (s : State) : (s.endUnwrittenRead).run = s.run := rfl
@[simp] theorem endUnwrittenRead_faultCause (s : State) : (s.endUnwrittenRead).faultCause = s.faultCause := rfl
@[simp] theorem endUnwrittenRead_faultInfo (s : State) : (s.endUnwrittenRead).faultInfo = s.faultInfo := rfl
@[simp] theorem endUnwrittenRead_mem (s : State) : (s.endUnwrittenRead).mem = s.mem := rfl
@[simp] theorem endUnwrittenRead_out (s : State) : (s.endUnwrittenRead).out = s.out := rfl
@[simp] theorem endUnwrittenRead_outPort (s : State) : (s.endUnwrittenRead).outPort = s.outPort := rfl
@[simp] theorem endUnwrittenRead_rstSeen (s : State) : (s.endUnwrittenRead).rstSeen = s.rstSeen := rfl
@[simp] theorem endUnwrittenRead_unwritten (s : State) : (s.endUnwrittenRead).unwritten = s.unwritten := rfl
@[simp] theorem endUnwrittenRead_flUnwritten (s : State) : (s.endUnwrittenRead).flUnwritten = s.flUnwritten := rfl
@[simp] theorem endUnwrittenRead_params (s : State) : (s.endUnwrittenRead).params = s.params := rfl
@[simp] theorem endUnwrittenRead_unwrittenRead (s : State) : (s.endUnwrittenRead).unwrittenRead = true := rfl
@[simp] theorem endUnwrittenRead_resets (s : State) : (s.endUnwrittenRead).resets = s.resets := rfl
@[simp] theorem endUnwrittenRead_reg (s : State) (q : Reg) : (s.endUnwrittenRead).reg q = s.reg q := rfl
@[simp] theorem endUnwrittenRead_holds (s : State) (q : Reg) : (s.endUnwrittenRead).holds q = s.holds q := rfl
@[simp] theorem endUnwrittenRead_flagE (s : State) : (s.endUnwrittenRead).flagE = s.flagE := rfl

/-! ### setPc -/

@[simp] theorem setPc_regs (s : State) (t : Byte) : (s.setPc t).regs = s.regs := rfl
@[simp] theorem setPc_pc (s : State) (t : Byte) : (s.setPc t).pc = zext9 t := rfl
@[simp] theorem setPc_fl (s : State) (t : Byte) : (s.setPc t).fl = s.fl := rfl
@[simp] theorem setPc_run (s : State) (t : Byte) : (s.setPc t).run = s.run := rfl
@[simp] theorem setPc_faultCause (s : State) (t : Byte) : (s.setPc t).faultCause = s.faultCause := rfl
@[simp] theorem setPc_faultInfo (s : State) (t : Byte) : (s.setPc t).faultInfo = s.faultInfo := rfl
@[simp] theorem setPc_mem (s : State) (t : Byte) : (s.setPc t).mem = s.mem := rfl
@[simp] theorem setPc_out (s : State) (t : Byte) : (s.setPc t).out = s.out := rfl
@[simp] theorem setPc_outPort (s : State) (t : Byte) : (s.setPc t).outPort = s.outPort := rfl
@[simp] theorem setPc_rstSeen (s : State) (t : Byte) : (s.setPc t).rstSeen = s.rstSeen := rfl
@[simp] theorem setPc_unwritten (s : State) (t : Byte) : (s.setPc t).unwritten = s.unwritten := rfl
@[simp] theorem setPc_flUnwritten (s : State) (t : Byte) : (s.setPc t).flUnwritten = s.flUnwritten := rfl
@[simp] theorem setPc_params (s : State) (t : Byte) : (s.setPc t).params = s.params := rfl
@[simp] theorem setPc_unwrittenRead (s : State) (t : Byte) : (s.setPc t).unwrittenRead = s.unwrittenRead := rfl
@[simp] theorem setPc_resets (s : State) (t : Byte) : (s.setPc t).resets = s.resets := rfl
@[simp] theorem setPc_reg (s : State) (t : Byte) (q : Reg) : (s.setPc t).reg q = s.reg q := rfl
@[simp] theorem setPc_holds (s : State) (t : Byte) (q : Reg) : (s.setPc t).holds q = s.holds q := rfl
@[simp] theorem setPc_flagE (s : State) (t : Byte) : (s.setPc t).flagE = s.flagE := rfl

/-! ### advance -/

@[simp] theorem advance_regs (s : State) (n : Nat) : (s.advance n).regs = s.regs := rfl
@[simp] theorem advance_pc (s : State) (n : Nat) : (s.advance n).pc = BitVec.ofNat 9 (s.pc.toNat + 1 + n) := rfl
@[simp] theorem advance_fl (s : State) (n : Nat) : (s.advance n).fl = s.fl := rfl
@[simp] theorem advance_run (s : State) (n : Nat) : (s.advance n).run = s.run := rfl
@[simp] theorem advance_faultCause (s : State) (n : Nat) : (s.advance n).faultCause = s.faultCause := rfl
@[simp] theorem advance_faultInfo (s : State) (n : Nat) : (s.advance n).faultInfo = s.faultInfo := rfl
@[simp] theorem advance_mem (s : State) (n : Nat) : (s.advance n).mem = s.mem := rfl
@[simp] theorem advance_out (s : State) (n : Nat) : (s.advance n).out = s.out := rfl
@[simp] theorem advance_outPort (s : State) (n : Nat) : (s.advance n).outPort = s.outPort := rfl
@[simp] theorem advance_rstSeen (s : State) (n : Nat) : (s.advance n).rstSeen = s.rstSeen := rfl
@[simp] theorem advance_unwritten (s : State) (n : Nat) : (s.advance n).unwritten = s.unwritten := rfl
@[simp] theorem advance_flUnwritten (s : State) (n : Nat) : (s.advance n).flUnwritten = s.flUnwritten := rfl
@[simp] theorem advance_params (s : State) (n : Nat) : (s.advance n).params = s.params := rfl
@[simp] theorem advance_unwrittenRead (s : State) (n : Nat) : (s.advance n).unwrittenRead = s.unwrittenRead := rfl
@[simp] theorem advance_resets (s : State) (n : Nat) : (s.advance n).resets = s.resets := rfl
@[simp] theorem advance_reg (s : State) (n : Nat) (q : Reg) : (s.advance n).reg q = s.reg q := rfl
@[simp] theorem advance_holds (s : State) (n : Nat) (q : Reg) : (s.advance n).holds q = s.holds q := rfl
@[simp] theorem advance_flagE (s : State) (n : Nat) : (s.advance n).flagE = s.flagE := rfl

/-! ### writeMem -/

@[simp] theorem writeMem_regs (s : State) (a v : Byte) : (s.writeMem a v).regs = s.regs := rfl
@[simp] theorem writeMem_pc (s : State) (a v : Byte) : (s.writeMem a v).pc = s.pc := rfl
@[simp] theorem writeMem_fl (s : State) (a v : Byte) : (s.writeMem a v).fl = s.fl := rfl
@[simp] theorem writeMem_run (s : State) (a v : Byte) : (s.writeMem a v).run = s.run := rfl
@[simp] theorem writeMem_faultCause (s : State) (a v : Byte) : (s.writeMem a v).faultCause = s.faultCause := rfl
@[simp] theorem writeMem_faultInfo (s : State) (a v : Byte) : (s.writeMem a v).faultInfo = s.faultInfo := rfl
@[simp] theorem writeMem_mem (s : State) (a v : Byte) : (s.writeMem a v).mem = s.mem.write a.toNat v := rfl
@[simp] theorem writeMem_out (s : State) (a v : Byte) : (s.writeMem a v).out = s.out := rfl
@[simp] theorem writeMem_outPort (s : State) (a v : Byte) : (s.writeMem a v).outPort = s.outPort := rfl
@[simp] theorem writeMem_rstSeen (s : State) (a v : Byte) : (s.writeMem a v).rstSeen = s.rstSeen := rfl
@[simp] theorem writeMem_unwritten (s : State) (a v : Byte) : (s.writeMem a v).unwritten = s.unwritten := rfl
@[simp] theorem writeMem_flUnwritten (s : State) (a v : Byte) : (s.writeMem a v).flUnwritten = s.flUnwritten := rfl
@[simp] theorem writeMem_params (s : State) (a v : Byte) : (s.writeMem a v).params = s.params := rfl
@[simp] theorem writeMem_unwrittenRead (s : State) (a v : Byte) : (s.writeMem a v).unwrittenRead = s.unwrittenRead := rfl
@[simp] theorem writeMem_resets (s : State) (a v : Byte) : (s.writeMem a v).resets = s.resets := rfl
@[simp] theorem writeMem_reg (s : State) (a v : Byte) (q : Reg) : (s.writeMem a v).reg q = s.reg q := rfl
@[simp] theorem writeMem_holds (s : State) (a v : Byte) (q : Reg) : (s.writeMem a v).holds q = s.holds q := rfl
@[simp] theorem writeMem_flagE (s : State) (a v : Byte) : (s.writeMem a v).flagE = s.flagE := rfl

/-! ### emit -/

@[simp] theorem emit_regs (s : State) (v : Byte) : (s.emit v).regs = s.regs := rfl
@[simp] theorem emit_pc (s : State) (v : Byte) : (s.emit v).pc = s.pc := rfl
@[simp] theorem emit_fl (s : State) (v : Byte) : (s.emit v).fl = s.fl := rfl
@[simp] theorem emit_run (s : State) (v : Byte) : (s.emit v).run = s.run := rfl
@[simp] theorem emit_faultCause (s : State) (v : Byte) : (s.emit v).faultCause = s.faultCause := rfl
@[simp] theorem emit_faultInfo (s : State) (v : Byte) : (s.emit v).faultInfo = s.faultInfo := rfl
@[simp] theorem emit_mem (s : State) (v : Byte) : (s.emit v).mem = s.mem := rfl
@[simp] theorem emit_out (s : State) (v : Byte) : (s.emit v).out = s.out ++ [v] := rfl
@[simp] theorem emit_outPort (s : State) (v : Byte) : (s.emit v).outPort = some v := rfl
@[simp] theorem emit_rstSeen (s : State) (v : Byte) : (s.emit v).rstSeen = s.rstSeen := rfl
@[simp] theorem emit_unwritten (s : State) (v : Byte) : (s.emit v).unwritten = s.unwritten := rfl
@[simp] theorem emit_flUnwritten (s : State) (v : Byte) : (s.emit v).flUnwritten = s.flUnwritten := rfl
@[simp] theorem emit_params (s : State) (v : Byte) : (s.emit v).params = s.params := rfl
@[simp] theorem emit_unwrittenRead (s : State) (v : Byte) : (s.emit v).unwrittenRead = s.unwrittenRead := rfl
@[simp] theorem emit_resets (s : State) (v : Byte) : (s.emit v).resets = s.resets := rfl
@[simp] theorem emit_reg (s : State) (v : Byte) (q : Reg) : (s.emit v).reg q = s.reg q := rfl
@[simp] theorem emit_holds (s : State) (v : Byte) (q : Reg) : (s.emit v).holds q = s.holds q := rfl
@[simp] theorem emit_flagE (s : State) (v : Byte) : (s.emit v).flagE = s.flagE := rfl

/-! ### halt -/

@[simp] theorem halt_regs (s : State) : (s.halt).regs = s.regs := rfl
@[simp] theorem halt_pc (s : State) : (s.halt).pc = s.pc := rfl
@[simp] theorem halt_fl (s : State) : (s.halt).fl = s.fl := rfl
@[simp] theorem halt_run (s : State) : (s.halt).run = .halted := rfl
@[simp] theorem halt_faultCause (s : State) : (s.halt).faultCause = s.faultCause := rfl
@[simp] theorem halt_faultInfo (s : State) : (s.halt).faultInfo = s.faultInfo := rfl
@[simp] theorem halt_mem (s : State) : (s.halt).mem = s.mem := rfl
@[simp] theorem halt_out (s : State) : (s.halt).out = s.out := rfl
@[simp] theorem halt_outPort (s : State) : (s.halt).outPort = s.outPort := rfl
@[simp] theorem halt_rstSeen (s : State) : (s.halt).rstSeen = s.rstSeen := rfl
@[simp] theorem halt_unwritten (s : State) : (s.halt).unwritten = s.unwritten := rfl
@[simp] theorem halt_flUnwritten (s : State) : (s.halt).flUnwritten = s.flUnwritten := rfl
@[simp] theorem halt_params (s : State) : (s.halt).params = s.params := rfl
@[simp] theorem halt_unwrittenRead (s : State) : (s.halt).unwrittenRead = s.unwrittenRead := rfl
@[simp] theorem halt_resets (s : State) : (s.halt).resets = s.resets := rfl
@[simp] theorem halt_reg (s : State) (q : Reg) : (s.halt).reg q = s.reg q := rfl
@[simp] theorem halt_holds (s : State) (q : Reg) : (s.halt).holds q = s.holds q := rfl
@[simp] theorem halt_flagE (s : State) : (s.halt).flagE = s.flagE := rfl

/-! ### raise -/

@[simp] theorem raise_regs (s : State) (c : FaultCause) (i : Word9) : (s.raise c i).regs = s.regs := rfl
@[simp] theorem raise_pc (s : State) (c : FaultCause) (i : Word9) : (s.raise c i).pc = s.pc := rfl
@[simp] theorem raise_fl (s : State) (c : FaultCause) (i : Word9) : (s.raise c i).fl = s.fl := rfl
@[simp] theorem raise_run (s : State) (c : FaultCause) (i : Word9) : (s.raise c i).run = .faulted := rfl
@[simp] theorem raise_faultCause (s : State) (c : FaultCause) (i : Word9) : (s.raise c i).faultCause = c := rfl
@[simp] theorem raise_faultInfo (s : State) (c : FaultCause) (i : Word9) : (s.raise c i).faultInfo = i := rfl
@[simp] theorem raise_mem (s : State) (c : FaultCause) (i : Word9) : (s.raise c i).mem = s.mem := rfl
@[simp] theorem raise_out (s : State) (c : FaultCause) (i : Word9) : (s.raise c i).out = s.out := rfl
@[simp] theorem raise_outPort (s : State) (c : FaultCause) (i : Word9) : (s.raise c i).outPort = s.outPort := rfl
@[simp] theorem raise_rstSeen (s : State) (c : FaultCause) (i : Word9) : (s.raise c i).rstSeen = s.rstSeen := rfl
@[simp] theorem raise_unwritten (s : State) (c : FaultCause) (i : Word9) : (s.raise c i).unwritten = s.unwritten := rfl
@[simp] theorem raise_flUnwritten (s : State) (c : FaultCause) (i : Word9) : (s.raise c i).flUnwritten = s.flUnwritten := rfl
@[simp] theorem raise_params (s : State) (c : FaultCause) (i : Word9) : (s.raise c i).params = s.params := rfl
@[simp] theorem raise_unwrittenRead (s : State) (c : FaultCause) (i : Word9) : (s.raise c i).unwrittenRead = s.unwrittenRead := rfl
@[simp] theorem raise_resets (s : State) (c : FaultCause) (i : Word9) : (s.raise c i).resets = s.resets := rfl
@[simp] theorem raise_reg (s : State) (c : FaultCause) (i : Word9) (q : Reg) : (s.raise c i).reg q = s.reg q := rfl
@[simp] theorem raise_holds (s : State) (c : FaultCause) (i : Word9) (q : Reg) : (s.raise c i).holds q = s.holds q := rfl
@[simp] theorem raise_flagE (s : State) (c : FaultCause) (i : Word9) : (s.raise c i).flagE = s.flagE := rfl

/-! ### writeReg -/

@[simp] theorem writeReg_regs (s : State) (r : Reg) (v : Byte) : (s.writeReg r v).regs = s.regs.set r.val v := rfl
@[simp] theorem writeReg_pc (s : State) (r : Reg) (v : Byte) : (s.writeReg r v).pc = s.pc := rfl
@[simp] theorem writeReg_fl (s : State) (r : Reg) (v : Byte) : (s.writeReg r v).fl = s.fl := rfl
@[simp] theorem writeReg_run (s : State) (r : Reg) (v : Byte) : (s.writeReg r v).run = s.run := rfl
@[simp] theorem writeReg_faultCause (s : State) (r : Reg) (v : Byte) : (s.writeReg r v).faultCause = s.faultCause := rfl
@[simp] theorem writeReg_faultInfo (s : State) (r : Reg) (v : Byte) : (s.writeReg r v).faultInfo = s.faultInfo := rfl
@[simp] theorem writeReg_mem (s : State) (r : Reg) (v : Byte) : (s.writeReg r v).mem = s.mem := rfl
@[simp] theorem writeReg_out (s : State) (r : Reg) (v : Byte) : (s.writeReg r v).out = s.out := rfl
@[simp] theorem writeReg_outPort (s : State) (r : Reg) (v : Byte) : (s.writeReg r v).outPort = s.outPort := rfl
@[simp] theorem writeReg_rstSeen (s : State) (r : Reg) (v : Byte) : (s.writeReg r v).rstSeen = s.rstSeen := rfl
@[simp] theorem writeReg_unwritten (s : State) (r : Reg) (v : Byte) : (s.writeReg r v).unwritten = s.unwritten.setIfInBounds r.val false := rfl
@[simp] theorem writeReg_flUnwritten (s : State) (r : Reg) (v : Byte) : (s.writeReg r v).flUnwritten = s.flUnwritten := rfl
@[simp] theorem writeReg_params (s : State) (r : Reg) (v : Byte) : (s.writeReg r v).params = s.params := rfl
@[simp] theorem writeReg_unwrittenRead (s : State) (r : Reg) (v : Byte) : (s.writeReg r v).unwrittenRead = s.unwrittenRead := rfl
@[simp] theorem writeReg_resets (s : State) (r : Reg) (v : Byte) : (s.writeReg r v).resets = s.resets := rfl
@[simp] theorem writeReg_flagE (s : State) (r : Reg) (v : Byte) : (s.writeReg r v).flagE = s.flagE := rfl

/-! ### Registers -/

theorem writeReg_reg (s : State) (r q : Reg) (v : Byte) :
    (s.writeReg r v).reg q = if q = r then v else s.reg q := by
  simp only [reg, writeReg, Vector.getElem_set, Fin.ext_iff, eq_comm]

@[simp] theorem writeReg_reg_same (s : State) (r : Reg) (v : Byte) : (s.writeReg r v).reg r = v := by
  simp [writeReg_reg]

@[simp] theorem writeReg_reg_ne (s : State) {r q : Reg} (v : Byte) (h : q ≠ r) :
    (s.writeReg r v).reg q = s.reg q := by
  simp [writeReg_reg, h]

theorem writeReg_holds (s : State) (r q : Reg) (v : Byte) :
    (s.writeReg r v).holds q = (decide (q = r) || s.holds q) := by
  simp only [holds, writeReg, Vector.getElem?_setIfInBounds]
  by_cases hq : q = r
  · subst hq
    by_cases h7 : q.val < 7 <;> simp [h7]
  · have : ¬ r.val = q.val := fun e => hq (Fin.ext e.symm)
    simp [hq, this]

@[simp] theorem writeReg_holds_same (s : State) (r : Reg) (v : Byte) : (s.writeReg r v).holds r = true := by
  simp [writeReg_holds]

@[simp] theorem writeReg_holds_ne (s : State) {r q : Reg} (v : Byte) (h : q ≠ r) :
    (s.writeReg r v).holds q = s.holds q := by
  simp [writeReg_holds, h]

/-- SP always holds a value (10_state.md R28 leaves out only R0 to R6). -/
@[simp] theorem holds_sp (s : State) : s.holds Config.spIndex = true := by
  simp [holds]

@[simp] theorem sp_eq (s : State) : s.sp = s.reg Config.spIndex := rfl

@[simp] theorem setSp_eq (s : State) (v : Byte) : s.setSp v = s.writeReg Config.spIndex v := rfl

@[simp] theorem readMem_eq (s : State) (a : Byte) : s.readMem a = s.mem.read a.toNat := rfl

@[simp] theorem push_eq (s : State) (v : Byte) :
    s.push v =
      (s.writeReg Config.spIndex (s.reg Config.spIndex - 1)).writeMem (s.reg Config.spIndex - 1) v := rfl

theorem flagE_eq (s : State) : s.flagE = s.fl.getLsbD 0 := rfl

end Sys2Proof.Machine.State
end

