-- ==== Sys2Proof/Laws/Operands.lean ====
section
/-! SUPPORT. Everything the operand forms can do, said once (spec 40_execution_cycle.md R60, 10_state.md R28), and the
laws of the ALU (43_alu.md R75, R76). -/

namespace Sys2Proof.Machine

section Operands

variable {s : State} {k : Reg → Result}

theorem withRegister_ok {b : Byte} {r : Reg} (h : b.toNat = r.val) : withRegister b s k = k r := by
  have hb : b.toNat < 8 := h ▸ r.isLt
  simp [withRegister, h, r.isLt]

theorem withRegister_bad {b : Byte} (h : 7 < b.toNat) :
    withRegister b s k = .next (s.raise .illegalRegister (zext9 b)) := by
  rw [withRegister, dif_neg (by omega)]

/-- The register check passes with the byte as the index, or raises ILLEGAL_REGISTER with the byte as info. -/
theorem withRegister_cases (b : Byte) (s : State) (k : Reg → Result) :
    (∃ r : Reg, b.toNat = r.val ∧ withRegister b s k = k r) ∨
      (7 < b.toNat ∧ withRegister b s k = .next (s.raise .illegalRegister (zext9 b))) := by
  by_cases h : b.toNat < 8
  · exact .inl ⟨⟨b.toNat, h⟩, rfl, withRegister_ok rfl⟩
  · exact .inr ⟨by omega, withRegister_bad (by omega)⟩

theorem withHeld_ok {r : Reg} {o : Result} (h : s.holds r = true) : withHeld r s o = o := if_pos h

theorem withHeld_unwritten {r : Reg} {o : Result} (h : s.holds r = false) :
    withHeld r s o = .next s.endUnwrittenRead := if_neg (by simp [h])

/-- A register read goes on, or ends the step in UnwrittenRead. -/
theorem withHeld_cases (r : Reg) (s : State) (o : Result) :
    (s.holds r = true ∧ withHeld r s o = o) ∨ (s.holds r = false ∧ withHeld r s o = .next s.endUnwrittenRead) := by
  cases h : s.holds r
  · exact .inr ⟨rfl, withHeld_unwritten h⟩
  · exact .inl ⟨rfl, withHeld_ok h⟩

theorem withFlagE_ok {k : Bool → Result} (h : s.flUnwritten = false) : withFlagE s k = k s.flagE := by
  simp [withFlagE, h]

theorem withFlagE_unwritten {k : Bool → Result} (h : s.flUnwritten = true) :
    withFlagE s k = .next s.endUnwrittenRead := by
  simp [withFlagE, h]

/-- A read of FL.E gives the bit, or ends the step in UnwrittenRead. -/
theorem withFlagE_cases (s : State) (k : Bool → Result) :
    (s.flUnwritten = false ∧ withFlagE s k = k s.flagE) ∨
      (s.flUnwritten = true ∧ withFlagE s k = .next s.endUnwrittenRead) := by
  cases h : s.flUnwritten
  · exact .inl ⟨rfl, withFlagE_ok h⟩
  · exact .inr ⟨rfl, withFlagE_unwritten h⟩

section TwoValues

variable {a b : Byte} {ra rb : Reg} {k : Reg → Byte → Byte → Result}

theorem withTwoValues_ok (ha : a.toNat = ra.val) (hb : b.toNat = rb.val) (ua : s.holds ra = true)
    (ub : s.holds rb = true) : withTwoValues a b s k = k ra (s.reg ra) (s.reg rb) := by
  rw [withTwoValues, withRegister_ok ha, withRegister_ok hb, withValue, withHeld_ok ua, withValue, withHeld_ok ub]

theorem withTwoValues_unwritten (ha : a.toNat = ra.val) (hb : b.toNat = rb.val)
    (hu : s.holds ra = false ∨ s.holds rb = false) : withTwoValues a b s k = .next s.endUnwrittenRead := by
  rw [withTwoValues, withRegister_ok ha, withRegister_ok hb, withValue]
  rcases withHeld_cases ra s (withValue rb s fun v => k ra (s.reg ra) v) with ⟨ua, e⟩ | ⟨-, e⟩ <;> rw [e]
  exact withHeld_unwritten (hu.resolve_left (by simp [ua]))

/-- The two-register form: both values, ILLEGAL_REGISTER of the first bad byte, or UnwrittenRead. -/
theorem withTwoValues_cases (a b : Byte) (s : State) (k : Reg → Byte → Byte → Result) :
    (∃ ra rb : Reg, a.toNat = ra.val ∧ b.toNat = rb.val ∧ s.holds ra = true ∧ s.holds rb = true ∧
        withTwoValues a b s k = k ra (s.reg ra) (s.reg rb)) ∨
      (7 < a.toNat ∧ withTwoValues a b s k = .next (s.raise .illegalRegister (zext9 a))) ∨
      (a.toNat ≤ 7 ∧ 7 < b.toNat ∧ withTwoValues a b s k = .next (s.raise .illegalRegister (zext9 b))) ∨
      (∃ ra rb : Reg, a.toNat = ra.val ∧ b.toNat = rb.val ∧ (s.holds ra = false ∨ s.holds rb = false) ∧
        withTwoValues a b s k = .next s.endUnwrittenRead) := by
  rcases withRegister_cases a s (fun ra => withRegister b s fun rb =>
    withValue ra s fun u => withValue rb s fun v => k ra u v) with ⟨ra, ha, e⟩ | ⟨ha, e⟩
  · have ha7 : a.toNat ≤ 7 := by have := ra.isLt; omega
    rcases withRegister_cases b s (fun rb => withValue ra s fun u => withValue rb s fun v => k ra u v) with
      ⟨rb, hb, -⟩ | ⟨hb, e'⟩
    · cases ua : s.holds ra
      · exact .inr (.inr (.inr ⟨ra, rb, ha, hb, .inl ua, withTwoValues_unwritten ha hb (.inl ua)⟩))
      · cases ub : s.holds rb
        · exact .inr (.inr (.inr ⟨ra, rb, ha, hb, .inr ub, withTwoValues_unwritten ha hb (.inr ub)⟩))
        · exact .inl ⟨ra, rb, ha, hb, ua, ub, withTwoValues_ok ha hb ua ub⟩
    · exact .inr (.inr (.inl ⟨ha7, hb, e.trans e'⟩))
  · exact .inr (.inl ⟨ha, e⟩)

end TwoValues

end Operands

/-! ### The ALU -/

@[simp] theorem aluMul_toNat (u v : Byte) : (aluMul u v).toNat = u.toNat * v.toNat % 256 := by
  simp [aluMul]

@[simp] theorem aluAdd_toNat (u v : Byte) : (aluAdd u v).toNat = (u.toNat + v.toNat) % 256 := by
  simp [aluAdd]

/-- CMP's flags are one of the three legal values, each for its order (43_alu.md R74). -/
theorem aluCmp_cases (u v : Byte) :
    (u.toNat < v.toNat ∧ aluCmp u v = 0b100) ∨ (v.toNat < u.toNat ∧ aluCmp u v = 0b010) ∨
      (u = v ∧ aluCmp u v = 0b001) := by
  unfold aluCmp
  split
  next h => exact .inl ⟨h, rfl⟩
  next h =>
    split
    next h' => exact .inr (.inl ⟨h', rfl⟩)
    next h' => exact .inr (.inr ⟨BitVec.eq_of_toNat_eq (by omega), rfl⟩)

end Sys2Proof.Machine
end

