-- ==== Sys2Proof/Laws/Exec.lean ====
section
/-! SUPPORT. What executing an instruction can do, said once: its own effect, fault entry for a reason its rule names,
or the end in UnwrittenRead. Every proof about exec cites `exec_cases` and does not unfold a meaning. -/

namespace Sys2Proof.Machine

/-- The effect each rule gives its instruction, with the conditions on the operands and the state alone. -/
inductive Effect : Instr → State → State → Prop where
  | hlt (s : State) : Effect .hlt s (s.halt.advance 0)
  | ldi (s : State) (a imm : Byte) (r : Reg) (ha : a.toNat = r.val) :
      Effect (.ldi a imm) s ((s.writeReg r imm).advance 2)
  | prn (s : State) (a : Byte) (r : Reg) (ha : a.toNat = r.val) (hr : s.holds r = true) :
      Effect (.prn a) s ((s.emit (s.reg r)).advance 1)
  | mul (s : State) (a b : Byte) (ra rb : Reg) (ha : a.toNat = ra.val) (hb : b.toNat = rb.val)
      (ua : s.holds ra = true) (ub : s.holds rb = true) :
      Effect (.mul a b) s ((s.writeReg ra (aluMul (s.reg ra) (s.reg rb))).advance 2)
  | add (s : State) (a b : Byte) (ra rb : Reg) (ha : a.toNat = ra.val) (hb : b.toNat = rb.val)
      (ua : s.holds ra = true) (ub : s.holds rb = true) :
      Effect (.add a b) s ((s.writeReg ra (aluAdd (s.reg ra) (s.reg rb))).advance 2)
  | cmp (s : State) (a b : Byte) (ra rb : Reg) (ha : a.toNat = ra.val) (hb : b.toNat = rb.val)
      (ua : s.holds ra = true) (ub : s.holds rb = true) :
      Effect (.cmp a b) s ((s.setFl (aluCmp (s.reg ra) (s.reg rb))).advance 2)
  | push (s : State) (a : Byte) (r : Reg) (ha : a.toNat = r.val) (hs : s.sp ≠ 0) (hr : s.holds r = true) :
      Effect (.push a) s ((s.push (if r = Config.spIndex then s.sp - 1 else s.reg r)).advance 1)
  | popSp (s : State) (a : Byte) (ha : a.toNat = 7) (hv : s.readMem s.sp ≠ 255) :
      Effect (.pop a) s (((s.writeReg Config.spIndex (s.readMem s.sp)).setSp (s.readMem s.sp + 1)).advance 1)
  | pop (s : State) (a : Byte) (r : Reg) (ha : a.toNat = r.val) (hr : r ≠ Config.spIndex) (hs : s.sp ≠ 255) :
      Effect (.pop a) s (((s.writeReg r (s.readMem s.sp)).setSp (s.sp + 1)).advance 1)
  | call (s : State) (a : Byte) (r : Reg) (ha : a.toNat = r.val) (hpc : s.pc.toNat + 2 ≤ 255) (hs : s.sp ≠ 0)
      (hr : s.holds r = true) :
      Effect (.call a) s
        ((s.push (BitVec.ofNat 8 (s.pc.toNat + 2))).setPc (if r = Config.spIndex then s.sp - 1 else s.reg r))
  | ret (s : State) (hs : s.sp ≠ 255) : Effect .ret s ((s.setSp (s.sp + 1)).setPc (s.readMem s.sp))
  | jeqTaken (s : State) (a : Byte) (r : Reg) (ha : a.toNat = r.val) (hf : s.flUnwritten = false)
      (he : s.flagE = true) (hr : s.holds r = true) : Effect (.jeq a) s (s.setPc (s.reg r))
  | jeqNotTaken (s : State) (a : Byte) (r : Reg) (ha : a.toNat = r.val) (hf : s.flUnwritten = false)
      (he : s.flagE = false) : Effect (.jeq a) s (s.advance 1)
  | jneTaken (s : State) (a : Byte) (r : Reg) (ha : a.toNat = r.val) (hf : s.flUnwritten = false)
      (he : s.flagE = false) (hr : s.holds r = true) : Effect (.jne a) s (s.setPc (s.reg r))
  | jneNotTaken (s : State) (a : Byte) (r : Reg) (ha : a.toNat = r.val) (hf : s.flUnwritten = false)
      (he : s.flagE = true) : Effect (.jne a) s (s.advance 1)
  | jmp (s : State) (a : Byte) (r : Reg) (ha : a.toNat = r.val) (hr : s.holds r = true) :
      Effect (.jmp a) s (s.setPc (s.reg r))

/-- Why executing an instruction raises a hardware fault, and what the latch records (60_exceptions.md R91-R94). -/
inductive FaultReason : Instr → State → FaultCause → Word9 → Prop where
  | illegalRegister (i : Instr) (s : State) (b : Byte) (hb : 7 < b.toNat)
      (hf : i.registerBytes.find? (fun x => !isRegisterByte x) = some b) :
      FaultReason i s .illegalRegister (zext9 b)
  | returnAddress (s : State) (a : Byte) (r : Reg) (ha : a.toNat = r.val) (hpc : 255 < s.pc.toNat + 2) :
      FaultReason (.call a) s .addressRange (BitVec.ofNat 9 (s.pc.toNat + 2))
  | pushAtZero (s : State) (a : Byte) (r : Reg) (ha : a.toNat = r.val) (hs : s.sp = 0) :
      FaultReason (.push a) s .stackOverflow 0
  | callAtZero (s : State) (a : Byte) (r : Reg) (ha : a.toNat = r.val) (hpc : s.pc.toNat + 2 ≤ 255) (hs : s.sp = 0) :
      FaultReason (.call a) s .stackOverflow 0
  | popAtTop (s : State) (a : Byte) (r : Reg) (ha : a.toNat = r.val) (hr : r ≠ Config.spIndex) (hs : s.sp = 255) :
      FaultReason (.pop a) s .stackUnderflow 255
  | popSpAtTop (s : State) (a : Byte) (ha : a.toNat = 7) (hv : s.readMem s.sp = 255) :
      FaultReason (.pop a) s .stackUnderflow 255
  | retAtTop (s : State) (hs : s.sp = 255) : FaultReason .ret s .stackUnderflow 255

/-- Why executing an instruction ends in UnwrittenRead: its checks pass, and it reads a register or FL that holds no
value (10_state.md R28; log entry 6). -/
inductive UnwrittenReason : Instr → State → Prop where
  | prn (s : State) (a : Byte) (r : Reg) (ha : a.toNat = r.val) (hr : s.holds r = false) : UnwrittenReason (.prn a) s
  | mul (s : State) (a b : Byte) (ra rb : Reg) (ha : a.toNat = ra.val) (hb : b.toNat = rb.val)
      (hu : s.holds ra = false ∨ s.holds rb = false) : UnwrittenReason (.mul a b) s
  | add (s : State) (a b : Byte) (ra rb : Reg) (ha : a.toNat = ra.val) (hb : b.toNat = rb.val)
      (hu : s.holds ra = false ∨ s.holds rb = false) : UnwrittenReason (.add a b) s
  | cmp (s : State) (a b : Byte) (ra rb : Reg) (ha : a.toNat = ra.val) (hb : b.toNat = rb.val)
      (hu : s.holds ra = false ∨ s.holds rb = false) : UnwrittenReason (.cmp a b) s
  | push (s : State) (a : Byte) (r : Reg) (ha : a.toNat = r.val) (hs : s.sp ≠ 0) (hr : s.holds r = false) :
      UnwrittenReason (.push a) s
  | call (s : State) (a : Byte) (r : Reg) (ha : a.toNat = r.val) (hpc : s.pc.toNat + 2 ≤ 255) (hs : s.sp ≠ 0)
      (hr : s.holds r = false) : UnwrittenReason (.call a) s
  | jeqFlags (s : State) (a : Byte) (r : Reg) (ha : a.toNat = r.val) (hf : s.flUnwritten = true) :
      UnwrittenReason (.jeq a) s
  | jeqTarget (s : State) (a : Byte) (r : Reg) (ha : a.toNat = r.val) (hf : s.flUnwritten = false)
      (he : s.flagE = true) (hr : s.holds r = false) : UnwrittenReason (.jeq a) s
  | jneFlags (s : State) (a : Byte) (r : Reg) (ha : a.toNat = r.val) (hf : s.flUnwritten = true) :
      UnwrittenReason (.jne a) s
  | jneTarget (s : State) (a : Byte) (r : Reg) (ha : a.toNat = r.val) (hf : s.flUnwritten = false)
      (he : s.flagE = false) (hr : s.holds r = false) : UnwrittenReason (.jne a) s
  | jmp (s : State) (a : Byte) (r : Reg) (ha : a.toNat = r.val) (hr : s.holds r = false) : UnwrittenReason (.jmp a) s

/-- The three ways an execution can end: with the instruction's own effect, in fault entry, or in UnwrittenRead. -/
def ExecCases (i : Instr) (s : State) (o : Result) : Prop :=
  (∃ t, o = .next t ∧ Effect i s t) ∨ (∃ c info, o = .next (s.raise c info) ∧ FaultReason i s c info) ∨
    (o = .next s.endUnwrittenRead ∧ UnwrittenReason i s)

theorem find_first {b : Byte} {bs : List Byte} (h : 7 < b.toNat) :
    (b :: bs).find? (fun x => !isRegisterByte x) = some b :=
  List.find?_cons_of_pos (by simp [isRegisterByte]; omega)

theorem find_second {a b : Byte} {bs : List Byte} (ha : a.toNat ≤ 7) (h : 7 < b.toNat) :
    (a :: b :: bs).find? (fun x => !isRegisterByte x) = some b := by
  rw [List.find?_cons_of_neg (by simp [isRegisterByte]; omega), find_first h]

/-- What `x[r]` reads as after SP was moved to `v`. -/
theorem reg_after_setSp (s : State) (r : Reg) (v : Byte) :
    (s.setSp v).reg r = if r = Config.spIndex then v else s.reg r := by
  simp [State.writeReg_reg]

/-- The one-register instructions: from what one does with a valid register, its cases. -/
theorem oneRegister_cases {i : Instr} {a : Byte} {s : State} {k : Reg → Result} (hi : i.registerBytes = [a])
    (hk : ∀ r : Reg, a.toNat = r.val → ExecCases i s (k r)) : ExecCases i s (withRegister a s k) := by
  rcases withRegister_cases a s k with ⟨r, ha, e⟩ | ⟨ha, e⟩ <;> rw [e]
  · exact hk r ha
  · exact .inr (.inl ⟨_, _, rfl, .illegalRegister _ s a ha (hi ▸ find_first ha)⟩)

/-- A read of one register: from the effect if it holds a value and the reason to end if it holds none, its cases. -/
theorem held_cases {i : Instr} {s : State} {r : Reg} {t : State} (hok : s.holds r = true → Effect i s t)
    (hno : s.holds r = false → UnwrittenReason i s) : ExecCases i s (withHeld r s (.next t)) := by
  rcases withHeld_cases r s (.next t) with ⟨hr, e⟩ | ⟨hr, e⟩ <;> rw [e]
  · exact .inl ⟨_, rfl, hok hr⟩
  · exact .inr (.inr ⟨rfl, hno hr⟩)

/-- The two-register instructions: from what one does with two values, and what it does without, its cases. -/
theorem twoValues_cases {i : Instr} {a b : Byte} {s : State} {k : Reg → Byte → Byte → Result}
    (hi : i.registerBytes = [a, b])
    (hk : ∀ ra rb : Reg, a.toNat = ra.val → b.toNat = rb.val → s.holds ra = true → s.holds rb = true →
      ∃ t, k ra (s.reg ra) (s.reg rb) = .next t ∧ Effect i s t)
    (hu : ∀ ra rb : Reg, a.toNat = ra.val → b.toNat = rb.val → s.holds ra = false ∨ s.holds rb = false →
      UnwrittenReason i s) : ExecCases i s (withTwoValues a b s k) := by
  rcases withTwoValues_cases a b s k with ⟨ra, rb, ha, hb, ua, ub, e⟩ | ⟨ha, e⟩ | ⟨ha, hb, e⟩ |
    ⟨ra, rb, ha, hb, h, e⟩ <;> rw [e]
  · exact .inl (hk ra rb ha hb ua ub)
  · exact .inr (.inl ⟨_, _, rfl, .illegalRegister _ s a ha (hi ▸ find_first ha)⟩)
  · exact .inr (.inl ⟨_, _, rfl, .illegalRegister _ s b hb (hi ▸ find_second ha hb)⟩)
  · exact .inr (.inr ⟨rfl, hu ra rb ha hb h⟩)

theorem execHlt_cases (s : State) : ExecCases .hlt s (execHlt s) := .inl ⟨_, rfl, .hlt s⟩

theorem execLdi_cases (a imm : Byte) (s : State) : ExecCases (.ldi a imm) s (execLdi a imm s) :=
  oneRegister_cases rfl fun r ha => .inl ⟨_, rfl, .ldi s a imm r ha⟩

theorem execPrn_cases (a : Byte) (s : State) : ExecCases (.prn a) s (execPrn a s) :=
  oneRegister_cases rfl fun r ha => held_cases (.prn s a r ha) (.prn s a r ha)

theorem execMul_cases (a b : Byte) (s : State) : ExecCases (.mul a b) s (execMul a b s) :=
  twoValues_cases rfl (fun ra rb ha hb ua ub => ⟨_, rfl, .mul s a b ra rb ha hb ua ub⟩) (.mul s a b)

theorem execAdd_cases (a b : Byte) (s : State) : ExecCases (.add a b) s (execAdd a b s) :=
  twoValues_cases rfl (fun ra rb ha hb ua ub => ⟨_, rfl, .add s a b ra rb ha hb ua ub⟩) (.add s a b)

theorem execCmp_cases (a b : Byte) (s : State) : ExecCases (.cmp a b) s (execCmp a b s) :=
  twoValues_cases rfl (fun ra rb ha hb ua ub => ⟨_, rfl, .cmp s a b ra rb ha hb ua ub⟩) (.cmp s a b)

/-- What PUSH does once SP is not 0. -/
theorem push_past_checks {a : Byte} {r : Reg} {s : State} (ha : a.toNat = r.val) (hs : s.sp ≠ 0) :
    execPush a s =
      withHeld r s (.next ((s.push (if r = Config.spIndex then s.sp - 1 else s.reg r)).advance 1)) := by
  rw [execPush, withRegister_ok ha, if_neg hs]
  simp only [State.sp_eq (State.setSp _ _), reg_after_setSp, if_pos]
  rfl

theorem execPush_cases (a : Byte) (s : State) : ExecCases (.push a) s (execPush a s) := by
  refine oneRegister_cases rfl fun r ha => ?_
  by_cases hs : s.sp = 0
  · rw [if_pos hs, hs]
    exact .inr (.inl ⟨_, _, rfl, .pushAtZero s a r ha hs⟩)
  · have e := push_past_checks ha hs
    rw [execPush, withRegister_ok ha] at e
    rw [e]
    exact held_cases (.push s a r ha hs) (.push s a r ha hs)

theorem execPop_cases (a : Byte) (s : State) : ExecCases (.pop a) s (execPop a s) := by
  refine oneRegister_cases rfl fun r ha => ?_
  by_cases hr : r = Config.spIndex
  · subst hr
    by_cases hv : s.readMem s.sp = 255
    · simp only [if_true, hv]
      exact .inr (.inl ⟨_, _, rfl, .popSpAtTop s a ha hv⟩)
    · simp only [if_true, if_neg hv]
      refine .inl ⟨_, ?_, .popSp s a ha hv⟩
      simp
  · by_cases hs : s.sp = 255
    · simp only [if_neg hr, hs, if_true]
      exact .inr (.inl ⟨_, _, rfl, .popAtTop s a r ha hr hs⟩)
    · simp only [if_neg hr, if_neg hs]
      refine .inl ⟨_, ?_, .pop s a r ha hr hs⟩
      rw [State.sp_eq (s.writeReg _ _), State.writeReg_reg_ne s _ (Ne.symm hr)]
      rfl

/-- What CALL does once its checks pass. -/
theorem call_past_checks {a : Byte} {r : Reg} {s : State} (ha : a.toNat = r.val) (hpc : s.pc.toNat + 2 ≤ 255)
    (hs : s.sp ≠ 0) :
    execCall a s =
      withHeld r s (.next ((s.push (BitVec.ofNat 8 (s.pc.toNat + 2))).setPc
        (if r = Config.spIndex then s.sp - 1 else s.reg r))) := by
  rw [execCall, withRegister_ok ha]
  simp only [if_neg (show ¬ s.pc.toNat + 2 > 255 by omega), if_neg hs]
  rw [← reg_after_setSp]
  rfl

theorem execCall_cases (a : Byte) (s : State) : ExecCases (.call a) s (execCall a s) := by
  refine oneRegister_cases rfl fun r ha => ?_
  by_cases hpc : s.pc.toNat + 2 > 255
  · simp only [if_pos hpc]
    exact .inr (.inl ⟨_, _, rfl, .returnAddress s a r ha hpc⟩)
  · by_cases hs : s.sp = 0
    · simp only [if_neg hpc, hs, if_true]
      exact .inr (.inl ⟨_, _, rfl, .callAtZero s a r ha (by omega) hs⟩)
    · have e := call_past_checks ha (show s.pc.toNat + 2 ≤ 255 by omega) hs
      rw [execCall, withRegister_ok ha] at e
      rw [e]
      exact held_cases (.call s a r ha (by omega) hs) (.call s a r ha (by omega) hs)

theorem execRet_cases (s : State) : ExecCases .ret s (execRet s) := by
  unfold execRet
  by_cases hs : s.sp = 255
  · simp only [hs, if_true]
    exact .inr (.inl ⟨_, _, rfl, .retAtTop s hs⟩)
  · simp only [if_neg hs]
    exact .inl ⟨_, rfl, .ret s hs⟩

theorem execJeq_cases (a : Byte) (s : State) : ExecCases (.jeq a) s (execJeq a s) := by
  refine oneRegister_cases rfl fun r ha => ?_
  rcases withFlagE_cases s _ with ⟨hf, e⟩ | ⟨hf, e⟩ <;> rw [e]
  · cases he : s.flagE
    · exact .inl ⟨_, rfl, .jeqNotTaken s a r ha hf he⟩
    · exact held_cases (.jeqTaken s a r ha hf he) (.jeqTarget s a r ha hf he)
  · exact .inr (.inr ⟨rfl, .jeqFlags s a r ha hf⟩)

theorem execJne_cases (a : Byte) (s : State) : ExecCases (.jne a) s (execJne a s) := by
  refine oneRegister_cases rfl fun r ha => ?_
  rcases withFlagE_cases s _ with ⟨hf, e⟩ | ⟨hf, e⟩ <;> rw [e]
  · cases he : s.flagE
    · exact held_cases (.jneTaken s a r ha hf he) (.jneTarget s a r ha hf he)
    · exact .inl ⟨_, rfl, .jneNotTaken s a r ha hf he⟩
  · exact .inr (.inr ⟨rfl, .jneFlags s a r ha hf⟩)

theorem execJmp_cases (a : Byte) (s : State) : ExecCases (.jmp a) s (execJmp a s) :=
  oneRegister_cases rfl fun r ha => held_cases (.jmp s a r ha) (.jmp s a r ha)

/-- Everything exec can answer: the instruction's effect, fault entry for one of its rule's reasons, or the end in
UnwrittenRead. -/
theorem exec_cases (i : Instr) (s : State) : ExecCases i s (exec i s) := by
  cases i with
  | hlt => exact execHlt_cases s
  | ldi a imm => exact execLdi_cases a imm s
  | prn a => exact execPrn_cases a s
  | mul a b => exact execMul_cases a b s
  | add a b => exact execAdd_cases a b s
  | push a => exact execPush_cases a s
  | pop a => exact execPop_cases a s
  | call a => exact execCall_cases a s
  | ret => exact execRet_cases s
  | cmp a b => exact execCmp_cases a b s
  | jeq a => exact execJeq_cases a s
  | jne a => exact execJne_cases a s
  | jmp a => exact execJmp_cases a s

/-- An instruction whose conditions hold completes with its effect. -/
theorem exec_of_effect {i : Instr} {s t : State} (h : Effect i s t) : exec i s = .next t := by
  cases h with
  | hlt s => rfl
  | ldi s a imm r ha => rw [exec, execLdi, withRegister_ok ha]
  | prn s a r ha hr => rw [exec, execPrn, withRegister_ok ha, withValue, withHeld_ok hr]
  | mul s a b ra rb ha hb ua ub => rw [exec, execMul, withTwoValues_ok ha hb ua ub]
  | add s a b ra rb ha hb ua ub => rw [exec, execAdd, withTwoValues_ok ha hb ua ub]
  | cmp s a b ra rb ha hb ua ub => rw [exec, execCmp, withTwoValues_ok ha hb ua ub]
  | push s a r ha hs hr => rw [exec, push_past_checks ha hs, withHeld_ok hr]
  | popSp s a ha hv =>
    rw [exec, execPop, withRegister_ok (r := Config.spIndex) ha]
    simp only [if_true, if_neg hv]
    simp
  | pop s a r ha hr hs =>
    rw [exec, execPop, withRegister_ok ha]
    simp only [if_neg hr, if_neg hs]
    rw [State.sp_eq (s.writeReg _ _), State.writeReg_reg_ne s _ (Ne.symm hr)]
    rfl
  | call s a r ha hpc hs hr => rw [exec, call_past_checks ha hpc hs, withHeld_ok hr]
  | ret s hs => exact if_neg hs
  | jeqTaken s a r ha hf he hr =>
    rw [exec, execJeq, withRegister_ok ha, withFlagE_ok hf, he, if_pos rfl, withValue, withHeld_ok hr]
  | jeqNotTaken s a r ha hf he =>
    rw [exec, execJeq, withRegister_ok ha, withFlagE_ok hf, he, if_neg (by decide)]
  | jneTaken s a r ha hf he hr =>
    rw [exec, execJne, withRegister_ok ha, withFlagE_ok hf, he, if_neg (by decide), withValue, withHeld_ok hr]
  | jneNotTaken s a r ha hf he =>
    rw [exec, execJne, withRegister_ok ha, withFlagE_ok hf, he, if_pos rfl]
  | jmp s a r ha hr => rw [exec, execJmp, withRegister_ok ha, withValue, withHeld_ok hr]

/-- An instruction that has a reason to end in UnwrittenRead ends so. -/
theorem exec_of_unwritten {i : Instr} {s : State} (h : UnwrittenReason i s) : exec i s = .next s.endUnwrittenRead := by
  cases h with
  | prn s a r ha hr => rw [exec, execPrn, withRegister_ok ha, withValue, withHeld_unwritten hr]
  | mul s a b ra rb ha hb hu => rw [exec, execMul, withTwoValues_unwritten ha hb hu]
  | add s a b ra rb ha hb hu => rw [exec, execAdd, withTwoValues_unwritten ha hb hu]
  | cmp s a b ra rb ha hb hu => rw [exec, execCmp, withTwoValues_unwritten ha hb hu]
  | push s a r ha hs hr => rw [exec, push_past_checks ha hs, withHeld_unwritten hr]
  | call s a r ha hpc hs hr => rw [exec, call_past_checks ha hpc hs, withHeld_unwritten hr]
  | jeqFlags s a r ha hf => rw [exec, execJeq, withRegister_ok ha, withFlagE_unwritten hf]
  | jeqTarget s a r ha hf he hr =>
    rw [exec, execJeq, withRegister_ok ha, withFlagE_ok hf, he, if_pos rfl, withValue, withHeld_unwritten hr]
  | jneFlags s a r ha hf => rw [exec, execJne, withRegister_ok ha, withFlagE_unwritten hf]
  | jneTarget s a r ha hf he hr =>
    rw [exec, execJne, withRegister_ok ha, withFlagE_ok hf, he, if_neg (by decide), withValue, withHeld_unwritten hr]
  | jmp s a r ha hr => rw [exec, execJmp, withRegister_ok ha, withValue, withHeld_unwritten hr]

/-- The first bad register byte of any instruction raises ILLEGAL_REGISTER (40_execution_cycle.md R60). -/
theorem exec_illegalRegister {i : Instr} {b : Byte}
    (hf : i.registerBytes.find? (fun x => !isRegisterByte x) = some b) (s : State) :
    exec i s = .next (s.raise .illegalRegister (zext9 b)) := by
  have one : ∀ {a : Byte} {k : Reg → Result}, [a].find? (fun x => !isRegisterByte x) = some b →
      withRegister a s k = .next (s.raise .illegalRegister (zext9 b)) := by
    intro a k h
    have : a = b ∧ 7 < b.toNat := by
      simp only [List.find?_singleton, isRegisterByte] at h
      grind
    obtain ⟨rfl, hb⟩ := this
    exact withRegister_bad hb
  have two : ∀ {a c : Byte} {k : Reg → Byte → Byte → Result},
      [a, c].find? (fun x => !isRegisterByte x) = some b →
      withTwoValues a c s k = .next (s.raise .illegalRegister (zext9 b)) := by
    intro a c k h
    have : (a = b ∧ 7 < b.toNat) ∨ (a.toNat < 8 ∧ c = b ∧ 7 < b.toNat) := by
      simp only [List.find?_cons, List.find?_nil, isRegisterByte] at h
      grind
    rcases this with ⟨rfl, hb⟩ | ⟨ha, rfl, hb⟩
    · rw [withTwoValues, withRegister_bad hb]
    · rw [withTwoValues, withRegister_ok (r := ⟨a.toNat, ha⟩) rfl, withRegister_bad hb]
  cases i with
  | hlt => simp [Instr.registerBytes] at hf
  | ldi a imm => rw [exec, execLdi, one hf]
  | prn a => rw [exec, execPrn, one hf]
  | mul a c => rw [exec, execMul, two hf]
  | add a c => rw [exec, execAdd, two hf]
  | push a => rw [exec, execPush, one hf]
  | pop a => rw [exec, execPop, one hf]
  | call a => rw [exec, execCall, one hf]
  | ret => simp [Instr.registerBytes] at hf
  | cmp a c => rw [exec, execCmp, two hf]
  | jeq a => rw [exec, execJeq, one hf]
  | jne a => rw [exec, execJne, one hf]
  | jmp a => rw [exec, execJmp, one hf]

/-- An instruction one of whose fault reasons holds enters that fault. -/
theorem exec_of_reason {i : Instr} {s : State} {c : FaultCause} {info : Word9} (h : FaultReason i s c info) :
    exec i s = .next (s.raise c info) := by
  cases h with
  | illegalRegister i s b hb hf => exact exec_illegalRegister hf s
  | returnAddress s a r ha hpc =>
    rw [exec, execCall, withRegister_ok ha]
    exact if_pos hpc
  | pushAtZero s a r ha hs =>
    rw [exec, execPush, withRegister_ok ha, if_pos hs, hs]
    rfl
  | callAtZero s a r ha hpc hs =>
    rw [exec, execCall, withRegister_ok ha]
    simp only [if_neg (show ¬ s.pc.toNat + 2 > 255 by omega), hs, if_true]
    rfl
  | popAtTop s a r ha hr hs =>
    rw [exec, execPop, withRegister_ok ha]
    simp only [if_neg hr, hs, if_true]
    rfl
  | popSpAtTop s a ha hv =>
    rw [exec, execPop, withRegister_ok (r := Config.spIndex) ha]
    simp only [if_true, hv]
    rfl
  | retAtTop s hs =>
    rw [exec, execRet]
    simp only [hs, if_true]
    rfl

end Sys2Proof.Machine
end

