-- ==== Sys2Proof/Laws/Memory.lean ====
section
/-! SUPPORT. The laws of memory: read after write, and that every memory operation keeps the canonical form. -/

namespace Sys2Proof.Machine.Memory

@[simp] theorem read_nil (a : Nat) : Memory.read [] a = 0 := rfl

theorem read_cons (k : Nat) (b : Byte) (m : Memory) (a : Nat) :
    Memory.read ((k, b) :: m) a = if k = a then b else Memory.read m a := rfl

theorem wf_nil : Memory.wf [] := by decide

theorem wf_tail {c : Host.Cell} {m : Memory} (h : Memory.wf (c :: m)) : Memory.wf m :=
  ⟨(List.pairwise_cons.mp h.1).2, fun d hd => h.2 d (List.mem_cons_of_mem _ hd)⟩

/-- An address that no cell lists reads as a cleared cell. -/
theorem read_unlisted {m : Memory} {a : Nat} (h : ∀ c ∈ m, c.1 ≠ a) : Memory.read m a = 0 := by
  induction m with
  | nil => rfl
  | cons c m ih =>
    obtain ⟨k, b⟩ := c
    rw [read_cons, if_neg (h (k, b) (List.mem_cons_self ..)),
      ih fun d hd => h d (List.mem_cons_of_mem _ hd)]

/-- Below the first listed address of a canonical tail nothing is listed. -/
theorem read_below {c : Host.Cell} {m : Memory} (h : Memory.wf (c :: m)) {a : Nat} (ha : a ≤ c.1) :
    Memory.read m a = 0 :=
  read_unlisted fun d hd => by
    have := (List.pairwise_cons.mp h.1).1 d hd
    omega

/-- A write leaves every other cell as it was (20_memory.md R31). -/
theorem read_write_ne (m : Memory) (v : Byte) {a a' : Nat} (h : a' ≠ a) :
    (m.write a v).read a' = m.read a' := by
  induction m with
  | nil => simp only [Memory.write]; split <;> simp [read_cons, h.symm]
  | cons c m ih =>
    obtain ⟨k, b⟩ := c
    simp only [Memory.write]
    split
    · split <;> simp [read_cons, h.symm]
    · split
      · subst_vars; split <;> simp [read_cons, h.symm]
      · simp [read_cons, ih]

/-- A read after a write to the same cell gives the value written (20_memory.md R31, R33). -/
theorem read_write_same {m : Memory} (hm : m.wf) (a : Nat) (v : Byte) : (m.write a v).read a = v := by
  induction m with
  | nil => simp only [Memory.write]; split <;> simp_all [read_cons]
  | cons c m ih =>
    obtain ⟨k, b⟩ := c
    simp only [Memory.write]
    split
    next hlt =>
      split
      next hv =>
        subst hv
        rw [read_cons, if_neg (by omega), read_below hm (by simp only; omega)]
      · simp [read_cons]
    next hlt =>
      split
      next heq =>
        subst heq
        split
        next hv => subst hv; exact read_below hm (le_refl _)
        · simp [read_cons]
      next hne => rw [read_cons, if_neg (fun e => hne e.symm), ih (wf_tail hm)]

theorem read_write {m : Memory} (hm : m.wf) (a a' : Nat) (v : Byte) :
    (m.write a v).read a' = if a' = a then v else m.read a' := by
  split
  next h => rw [h, read_write_same hm]
  next h => exact read_write_ne m v h

/-- The cells of a written memory are old ones or the written one. -/
theorem mem_write {m : Memory} {a : Nat} {v : Byte} {c : Host.Cell} (h : c ∈ m.write a v) :
    c ∈ m ∨ (c = (a, v) ∧ v ≠ 0) := by
  induction m with
  | nil =>
    simp only [Memory.write] at h
    split at h <;> simp_all
  | cons d m ih =>
    obtain ⟨k, b⟩ := d
    simp only [Memory.write] at h
    split at h
    · split at h <;> simp_all
      tauto
    · split at h
      · split at h <;> simp_all
        tauto
      · rcases List.mem_cons.mp h with h | h
        · exact .inl (h ▸ List.mem_cons_self ..)
        · rcases ih h with h | h
          · exact .inl (List.mem_cons_of_mem _ h)
          · exact .inr h

/-- A write to one of the 256 cells keeps the canonical form. -/
theorem wf_write {m : Memory} (hm : m.wf) {a : Nat} (ha : a < 256) (v : Byte) : (m.write a v).wf := by
  refine ⟨?_, fun c hc => ?_⟩
  · induction m with
    | nil => simp only [Memory.write]; split <;> simp
    | cons d m ih =>
      obtain ⟨k, b⟩ := d
      obtain ⟨hhead, htail⟩ := List.pairwise_cons.mp hm.1
      simp only [Memory.write]
      split
      next hlt =>
        split
        · exact hm.1
        · refine List.pairwise_cons.mpr ⟨fun c hc => ?_, hm.1⟩
          rcases List.mem_cons.mp hc with rfl | hc
          · exact hlt
          · exact Nat.lt_trans hlt (hhead c hc)
      next hlt =>
        split
        next heq =>
          subst heq
          split
          · exact htail
          · exact List.pairwise_cons.mpr ⟨hhead, htail⟩
        next hne =>
          refine List.pairwise_cons.mpr ⟨fun c hc => ?_, ih (wf_tail hm)⟩
          rcases mem_write hc with hc | ⟨rfl, -⟩
          · exact hhead c hc
          · simp only; omega
  · rcases mem_write hc with hc | ⟨rfl, hv⟩
    · exact hm.2 c hc
    · exact ⟨ha, hv⟩

/-- The load port's write keeps the canonical form (70_reset_and_hazards.md R107). -/
theorem wf_loadWrite {m : Memory} (hm : m.wf) (p : LoadPins) : (m.loadWrite p).wf := by
  unfold Memory.loadWrite
  split
  · exact wf_write hm p.loadAddr.isLt _
  · exact hm


end Sys2Proof.Machine.Memory
end

