-- ==== Sys2Proof/Laws/Step.lean ====
section
/-! SUPPORT. What the fetch and the step can do, said once (spec 40_execution_cycle.md R55-R64). -/

namespace Sys2Proof.Machine

/-- The fetch window is the first three bytes from the pc on. -/
theorem fetchWindow_eq_take (s : State) : s.fetchWindow = (bytesFromPc s).take 3 := by
  have hpc := s.pc.isLt
  unfold State.fetchWindow bytesFromPc
  rw [← List.map_take]
  congr 1
  rcases Nat.lt_or_ge s.pc.toNat 254 with h | h
  · obtain ⟨n, hn⟩ : ∃ n, 256 - s.pc.toNat = n + 3 := ⟨253 - s.pc.toNat, by omega⟩
    rw [hn]
    have h2 : s.pc.toNat + 2 < 256 := by omega
    simp [List.filter, List.range'_succ, h2, show s.pc.toNat < 256 by omega, show s.pc.toNat + 1 < 256 by omega]
  · rcases Nat.lt_or_ge s.pc.toNat 256 with h' | h'
    · obtain e | e : s.pc.toNat = 254 ∨ s.pc.toNat = 255 := by omega
      · rw [e]; rfl
      · rw [e]; rfl
    · have h1 : 256 - s.pc.toNat = 0 := by omega
      rw [h1]
      simp [List.filter, show ¬ s.pc.toNat < 256 by omega, show ¬ s.pc.toNat + 1 < 256 by omega,
        show ¬ s.pc.toNat + 2 < 256 by omega]

/-- The bytes from a pc in memory begin with the opcode byte. -/
theorem bytesFromPc_eq {s : State} (h : s.pc.toNat ≤ 255) :
    bytesFromPc s =
      s.mem.read s.pc.toNat :: (List.range' (s.pc.toNat + 1) (255 - s.pc.toNat)).map s.mem.read := by
  unfold bytesFromPc
  rw [show 256 - s.pc.toNat = (255 - s.pc.toNat) + 1 by omega, List.range'_succ]
  rfl

/-- Opcode fetch past the last cell (40_execution_cycle.md R56). -/
theorem fetch_past {s : State} (h : 255 < s.pc.toNat) : fetch s = .raise .addressRange s.pc := by
  rw [fetch, if_pos h]

/-- The over-fetch check (40_execution_cycle.md R57). -/
theorem fetch_overfetch {s : State} (h : 253 < s.pc.toNat) (h' : s.pc.toNat ≤ 255)
    (ho : s.params.overfetchFault = true) : fetch s = .raise .addressRange 256 := by
  rw [fetch, if_neg (by omega), if_pos (by simp [ho]; omega)]
  rfl

theorem fetch_eq_decode {s : State} (h : s.pc.toNat ≤ 255) (ho : OverfetchPasses s) :
    fetch s = match decode s.fetchWindow with
      | .ok (i, _) => .instr i
      | .error (.illegalOpcode op) => .raise .illegalOpcode (zext9 op)
      | .error .truncated => .raise .addressRange 256
      | .error .noBytes => .raise .addressRange s.pc := by
  rw [fetch, if_neg (by omega), if_neg]
  · rfl
  · rcases ho with ho | ho <;> simp [ho]

/-- What the window decodes to is what the bytes from the pc on decode to. -/
theorem decode_window (s : State) :
    (decode s.fetchWindow).map Prod.fst = (decode (bytesFromPc s)).map Prod.fst := by
  rw [fetchWindow_eq_take, decode_take]

/-- Bytes at the pc that decode are fetched as that instruction. -/
theorem fetch_instr {s : State} {i : Instr} {rest : List Byte} (h : s.pc.toNat ≤ 255) (ho : OverfetchPasses s)
    (hd : decode (bytesFromPc s) = .ok (i, rest)) : fetch s = .instr i := by
  have hw := decode_window s
  rw [hd] at hw
  rw [fetch_eq_decode h ho]
  cases e : decode s.fetchWindow with
  | error e' => rw [e] at hw; simp [Except.map] at hw
  | ok p =>
    rw [e] at hw
    simp only [Except.map, Except.ok.injEq] at hw
    simp [← hw]

/-- Bytes at the pc that do not decode are fetched as the fault for their decode error. -/
theorem fetch_error {s : State} {e : DecodeError} (h : s.pc.toNat ≤ 255) (ho : OverfetchPasses s)
    (hd : decode (bytesFromPc s) = .error e) :
    fetch s = match e with
      | .illegalOpcode op => .raise .illegalOpcode (zext9 op)
      | .truncated => .raise .addressRange 256
      | .noBytes => .raise .addressRange s.pc := by
  have hw := decode_window s
  rw [hd] at hw
  rw [fetch_eq_decode h ho]
  cases e' : decode s.fetchWindow with
  | ok p => rw [e'] at hw; simp [Except.map] at hw
  | error e'' =>
    rw [e'] at hw
    simp only [Except.map, Except.error.injEq] at hw
    subst hw
    cases e'' <;> rfl

/-- Why the fetch raises a fault, and what the latch records (60_exceptions.md R90, R92). -/
inductive FetchReason : State → FaultCause → Word9 → Prop where
  | past (s : State) (h : 255 < s.pc.toNat) : FetchReason s .addressRange s.pc
  | overfetch (s : State) (h : 253 < s.pc.toNat) (h' : s.pc.toNat ≤ 255) (ho : s.params.overfetchFault = true) :
      FetchReason s .addressRange 256
  | illegalOpcode (s : State) (h : s.pc.toNat ≤ 255) (ho : OverfetchPasses s)
      (hr : rom (s.mem.read s.pc.toNat) = none) :
      FetchReason s .illegalOpcode (zext9 (s.mem.read s.pc.toNat))
  | operand (s : State) (h : s.pc.toNat ≤ 255) (ho : OverfetchPasses s)
      (hd : decode (bytesFromPc s) = .error .truncated) : FetchReason s .addressRange 256

/-- Everything the fetch can answer. -/
theorem fetch_cases (s : State) :
    (∃ i rest, s.pc.toNat ≤ 255 ∧ OverfetchPasses s ∧ decode (bytesFromPc s) = .ok (i, rest) ∧ fetch s = .instr i) ∨
      (∃ c info, fetch s = .raise c info ∧ FetchReason s c info) := by
  rcases Nat.lt_or_ge 255 s.pc.toNat with h | h
  · exact .inr ⟨_, _, fetch_past h, .past s h⟩
  · by_cases ho : OverfetchPasses s
    · cases hd : decode (bytesFromPc s) with
      | ok p => exact .inl ⟨p.1, p.2, h, ho, rfl, fetch_instr h ho hd⟩
      | error e =>
        refine .inr ?_
        have hf := fetch_error h ho hd
        cases e with
        | noBytes =>
          rw [bytesFromPc_eq h, decode] at hd
          split at hd
          · cases hd
          · unfold decodeOperands at hd; split at hd <;> cases hd
        | truncated => exact ⟨_, _, hf, .operand s h ho hd⟩
        | illegalOpcode op =>
          rw [bytesFromPc_eq h, decode] at hd
          split at hd
          next hr =>
            simp only [Except.error.injEq, DecodeError.illegalOpcode.injEq] at hd
            subst hd
            exact ⟨_, _, hf, .illegalOpcode s h ho hr⟩
          · unfold decodeOperands at hd; split at hd <;> cases hd
    · have ho' : s.params.overfetchFault = true ∧ 253 < s.pc.toNat := by
        simp only [OverfetchPasses, not_or, Bool.not_eq_false] at ho
        exact ⟨ho.1, by omega⟩
      exact .inr ⟨_, _, fetch_overfetch ho'.2 h ho'.1, .overfetch s ho'.2 h ho'.1⟩

theorem step_stopped {s : State} (h : ¬ s.TakesSteps) : step s = .next s.beginStep := if_neg h

theorem step_running {s : State} (h : s.TakesSteps) :
    step s = match fetch s.beginStep with
      | .instr i => exec i s.beginStep
      | .raise cause info => .next (s.beginStep.raise cause info) := if_pos h

/-- Everything a step can do: hold a core that takes no step, run the instruction at the pc, or enter a fetch fault. -/
theorem step_cases (s : State) :
    (¬ s.TakesSteps ∧ step s = .next s.beginStep) ∨
      (∃ i rest, s.TakesSteps ∧ s.pc.toNat ≤ 255 ∧ OverfetchPasses s ∧
        decode (bytesFromPc s) = .ok (i, rest) ∧ step s = exec i s.beginStep) ∨
      (∃ c info, s.TakesSteps ∧ step s = .next (s.beginStep.raise c info) ∧ FetchReason s.beginStep c info) := by
  by_cases h : s.TakesSteps
  · rcases fetch_cases s.beginStep with ⟨i, rest, hpc, ho, hd, hf⟩ | ⟨c, info, hf, hr⟩
    · exact .inr (.inl ⟨i, rest, h, hpc, ho, hd, by rw [step_running h, hf]⟩)
    · exact .inr (.inr ⟨c, info, h, by rw [step_running h, hf], hr⟩)
  · exact .inl ⟨h, step_stopped h⟩

theorem runSteps_succ (k : Nat) (s : State) :
    runSteps (k + 1) s = match step s with
      | .next t => runSteps k t
      | .fault r => .fault r
      | .refused r => .refused r := rfl

theorem core_run_succ (M : Host.Core) (k : Nat) (s : M.State) :
    M.run (k + 1) s = match M.step s with
      | .next t => M.run k t
      | .fault r => .fault r
      | .refused r => .refused r := rfl

/-- A run of the model is the host's run of its core. -/
theorem runSteps_eq_core_run (k : Nat) (s : State) : runSteps k s = Sys2Proof.core.run k s := by
  induction k generalizing s with
  | zero => rfl
  | succ k ih =>
    refine (runSteps_succ k s).trans (Eq.trans ?_ (core_run_succ Sys2Proof.core k s).symm)
    have hstep : Sys2Proof.core.step s = step s := rfl
    rw [hstep]
    cases step s with
    | next t => exact ih t
    | fault r => rfl
    | refused r => rfl

end Sys2Proof.Machine
end

