-- ==== Sys2Proof/Laws/Fetch.lean ====
section
/-! SUPPORT. Placing an instruction word where the next step fetches: it is fetched and run (log entry 18). -/

namespace Sys2Proof.Machine

/-- Placing bytes inside memory keeps the canonical form. -/
theorem wf_place {m : Memory} (hm : m.wf) (a : Nat) (bs : List Byte) (h : a + bs.length ≤ 256) : (m.place a bs).wf := by
  induction bs generalizing m a with
  | nil => exact hm
  | cons b bs ih =>
    simp only [List.length_cons] at h
    exact ih (Memory.wf_write hm (by omega) b) (a + 1) (by omega)

/-- The three bytes placed at `a` are what is read there. -/
theorem read_place_three {m : Memory} (hm : m.wf) {a : Nat} (h : a + 2 ≤ 255) (b c d : Byte) :
    (m.place a [b, c, d]).read a = b ∧ (m.place a [b, c, d]).read (a + 1) = c ∧
      (m.place a [b, c, d]).read (a + 2) = d := by
  have h1 := Memory.wf_write hm (show a < 256 by omega) b
  have h2 := Memory.wf_write h1 (show a + 1 < 256 by omega) c
  simp [Memory.place, Memory.read_write hm, Memory.read_write h1, Memory.read_write h2,
    show ¬ a = a + 1 + 1 by omega]

/-- The place for the next fetch leaves room for three bytes. -/
theorem placePc_room (s : State) : s.placePc.toNat + 2 ≤ 255 := by
  unfold State.placePc
  split
  · assumption
  · decide

/-- A word that decodes to an instruction is what the very next step runs. -/
theorem step_withFetchWord {s : State} (hm : s.mem.wf) {nbits w : Nat} {i : Instr}
    (h : decodeTableWord nbits w = some i) :
    step (s.withFetchWord nbits w) = exec i (s.withFetchWord nbits w).beginStep := by
  have hroom := placePc_room s
  obtain ⟨b, c, d, hb⟩ : ∃ b c d, tableBytes nbits w = [b, c, d] := ⟨_, _, _, rfl⟩
  unfold decodeTableWord at h
  rw [hb] at h
  split at h
  next j rest hd =>
    obtain rfl := Option.some.inj h
    rw [step_running (s := s.withFetchWord nbits w) ⟨rfl, rfl⟩]
    obtain ⟨r0, r1, r2⟩ := read_place_three hm hroom b c d
    have hw : (s.withFetchWord nbits w).beginStep.fetchWindow = [b, c, d] := by
      unfold State.fetchWindow
      simp only [State.beginStep, State.withFetchWord, State.placed, hb]
      simp [List.filter, show s.placePc.toNat < 256 by omega, show s.placePc.toNat + 1 < 256 by omega,
        show s.placePc.toNat + 2 < 256 by omega, r0, r1, r2]
    have hpc : (s.withFetchWord nbits w).beginStep.pc.toNat ≤ 253 := by
      show s.placePc.toNat ≤ 253; omega
    rw [fetch_eq_decode (by omega) (.inr hpc), hw, hd]
  next => cases h

end Sys2Proof.Machine
end

