-- ==== Sys2Proof/Laws/PerInstr.lean ====
section
/-! SUPPORT. Statements made per instruction. Layout: the encoding's first byte is the instruction's opcode, its ROM
entry has as many operand bytes as the encoding, and the entry's operand count and sets-PC bit are the byte's AA and C
(spec 30_encoding.md R41, R43, R45, R47). -/

namespace Sys2Proof.Laws.Layout

/-- The encoding of `i` is an opcode byte whose ROM entry counts the operand bytes that follow. -/
def Statement (i : Instr) : Prop :=
  ∃ op operands e, encode i = op :: operands ∧ rom op = some e ∧ e.count = operands.length ∧
    e.count = opAA op ∧ e.setsPc = opC op

theorem hlt : Statement .hlt := ⟨_, _, _, rfl, rom_hlt, by decide, by decide, by decide⟩
theorem ldi (a imm : Byte) : Statement (.ldi a imm) := ⟨_, _, _, rfl, rom_ldi, rfl, by decide, by decide⟩
theorem prn (a : Byte) : Statement (.prn a) := ⟨_, _, _, rfl, rom_prn, rfl, by decide, by decide⟩
theorem mul (a b : Byte) : Statement (.mul a b) := ⟨_, _, _, rfl, rom_mul, rfl, by decide, by decide⟩
theorem add (a b : Byte) : Statement (.add a b) := ⟨_, _, _, rfl, rom_add, rfl, by decide, by decide⟩
theorem push (a : Byte) : Statement (.push a) := ⟨_, _, _, rfl, rom_push, rfl, by decide, by decide⟩
theorem pop (a : Byte) : Statement (.pop a) := ⟨_, _, _, rfl, rom_pop, rfl, by decide, by decide⟩
theorem call (a : Byte) : Statement (.call a) := ⟨_, _, _, rfl, rom_call, rfl, by decide, by decide⟩
theorem ret : Statement .ret := ⟨_, _, _, rfl, rom_ret, by decide, by decide, by decide⟩
theorem cmp (a b : Byte) : Statement (.cmp a b) := ⟨_, _, _, rfl, rom_cmp, rfl, by decide, by decide⟩
theorem jeq (a : Byte) : Statement (.jeq a) := ⟨_, _, _, rfl, rom_jeq, rfl, by decide, by decide⟩
theorem jne (a : Byte) : Statement (.jne a) := ⟨_, _, _, rfl, rom_jne, rfl, by decide, by decide⟩
theorem jmp (a : Byte) : Statement (.jmp a) := ⟨_, _, _, rfl, rom_jmp, rfl, by decide, by decide⟩

end Sys2Proof.Laws.Layout
end

