-- ==== Sys2Proof/Tests/Slice0.lean ====
section
/-! SUPPORT. Tests: the well-formedness smoke tests, decoding of words written out bit by bit, one step per
instruction, and for each statement with hypotheses a witness that meets them. Expected results come from the encodings of
30_encoding.md R48 and the vectors V10-V80 of 95_test_vectors.md. -/

namespace Sys2Proof.Tests

open Sys2Proof.Machine

/-! ### Helpers -/

/-- A Running core with the given registers, pc and memory and everything else at reset. -/
def small (regs : Vector Byte 8) (pc : Word9) (mem : Memory) : State := { State.reset with regs := regs, pc := pc, mem := mem }

/-- R0..R6 and SP by value. -/
def regsOf (r0 r1 sp : Byte) : Vector Byte 8 := #v[r0, r1, 0, 0, 0, 0, 0, sp]

/-- The state a result holds, looked at through `p`; false for a fault or a refusal. -/
def answers (o : Result) (p : State → Bool) : Bool :=
  match o with
  | .next t => p t
  | .fault _ => false
  | .refused _ => false

/-- A Faulted state with the given latch and pc. -/
def faultedWith (cause : FaultCause) (info pc : Word9) (t : State) : Bool :=
  decide (t.run = .faulted ∧ t.faultCause = cause ∧ t.faultInfo = info ∧ t.pc = pc)

/-! ### Well-formedness: the one check, a register byte 0..7, refused in every position -/

theorem test_ldi_register_checked : Instr.wellFormed (.ldi 8 0) = false := by decide
theorem test_ldi_immediate_free : Instr.wellFormed (.ldi 7 255) = true := by decide
theorem test_prn_register_checked : Instr.wellFormed (.prn 8) = false := by decide
theorem test_mul_first_checked : Instr.wellFormed (.mul 8 0) = false := by decide
theorem test_mul_second_checked : Instr.wellFormed (.mul 0 8) = false := by decide
theorem test_add_first_checked : Instr.wellFormed (.add 255 0) = false := by decide
theorem test_add_second_checked : Instr.wellFormed (.add 7 255) = false := by decide
theorem test_cmp_first_checked : Instr.wellFormed (.cmp 9 200) = false := by decide
theorem test_cmp_second_checked : Instr.wellFormed (.cmp 1 200) = false := by decide
theorem test_stack_register_checked :
    Instr.wellFormed (.push 8) = false ∧ Instr.wellFormed (.pop 8) = false := by decide
theorem test_jump_register_checked :
    Instr.wellFormed (.call 8) = false ∧ Instr.wellFormed (.jeq 8) = false ∧ Instr.wellFormed (.jne 8) = false ∧
      Instr.wellFormed (.jmp 8) = false := by decide
theorem test_no_operand_well_formed : Instr.wellFormed .hlt = true ∧ Instr.wellFormed .ret = true := by decide

/-! ### Decoding: a word for every constructor, from the binary column of 30_encoding.md R48 -/

theorem test_decode_hlt : decode [0b00000001] = .ok (.hlt, []) := by decide
theorem test_decode_ldi : decode [0b10000010, 0b00000110, 0b11001000] = .ok (.ldi 6 200, []) := by decide
theorem test_decode_prn : decode [0b01000111, 0b00000101] = .ok (.prn 5, []) := by decide
theorem test_decode_mul : decode [0b10100010, 0b00000001, 0b00000010] = .ok (.mul 1 2, []) := by decide
theorem test_decode_add : decode [0b10100000, 0b00000111, 0b00000000] = .ok (.add 7 0, []) := by decide
theorem test_decode_push : decode [0b01000101, 0b00000011] = .ok (.push 3, []) := by decide
theorem test_decode_pop : decode [0b01000110, 0b00000100] = .ok (.pop 4, []) := by decide
theorem test_decode_call : decode [0b01010000, 0b00000001] = .ok (.call 1, []) := by decide
theorem test_decode_ret : decode [0b00010001] = .ok (.ret, []) := by decide
theorem test_decode_cmp : decode [0b10100111, 0b00000010, 0b00000101] = .ok (.cmp 2 5, []) := by decide
theorem test_decode_jeq : decode [0b01010101, 0b00000011] = .ok (.jeq 3, []) := by decide
theorem test_decode_jne : decode [0b01010110, 0b00000011] = .ok (.jne 3, []) := by decide
theorem test_decode_jmp : decode [0b01010100, 0b00000010] = .ok (.jmp 2, []) := by decide

/-- V10, V11, V13, V14: invalid opcodes are refused by name. -/
theorem test_decode_invalid :
    decode [0x00] = .error (.illegalOpcode 0x00) ∧ decode [0xFF] = .error (.illegalOpcode 0xFF) ∧
      decode [0xC2, 0, 0] = .error (.illegalOpcode 0xC2) ∧ decode [0x02] = .error (.illegalOpcode 0x02) := by decide

theorem test_decode_short : decode [0x82, 0] = .error .truncated ∧ decode [] = .error .noBytes := by decide

/-- The table's numbering: the first byte is bits 7..0. -/
theorem test_decode_table_word :
    decodeTableWord 24 0xC80682 = some (.ldi 6 200) ∧ decodeTableWord 8 0x47 = some (.prn 0) ∧
      decodeTableWord 8 0 = none := by decide

/-- A word placed for the next fetch runs as the first instruction after reset. -/
theorem test_fetch_word_runs :
    answers (step (State.reset.withFetchWord 24 0x090082)) (fun t => t.reg 0 = 9 ∧ t.pc = 3) = true := by decide

/-! ### One step: 95_test_vectors.md -/

/-- V30; V18 at the last cell. -/
theorem test_step_hlt :
    answers (step (small (regsOf 0 0 0xF4) 0 [(0, 0x01)])) (fun t => t.run = .halted ∧ t.pc = 1 ∧ t.out = []) = true ∧
      answers (step (small (regsOf 0 0 0xF4) 255 [(255, 0x01)])) (fun t => t.run = .halted ∧ t.pc = 256) = true := by
  decide

/-- V31; V32 writes SP. -/
theorem test_step_ldi :
    answers (step (small (regsOf 0 0 0xF4) 0 [(0, 0x82), (2, 8)])) (fun t => t.reg 0 = 8 ∧ t.pc = 3) = true ∧
      answers (step (small (regsOf 0 0 0xF4) 0 [(0, 0x82), (1, 7)])) (fun t => t.sp = 0 ∧ t.pc = 3) = true := by decide

/-- V34; V35 prints SP. -/
theorem test_step_prn :
    answers (step (small (regsOf 72 0 0xF4) 0 [(0, 0x47)])) (fun t => t.out = [72] ∧ t.outPort = some 72 ∧ t.pc = 2) =
        true ∧
      answers (step (small (regsOf 0 0 0xF4) 0 [(0, 0x47), (1, 7)])) (fun t => t.out = [244]) = true := by decide

/-- V42. -/
theorem test_step_mul :
    answers (step (small (regsOf 255 255 0xF4) 0 [(0, 0xA2), (2, 1)]))
      (fun t => t.reg 0 = 1 ∧ t.reg 1 = 255 ∧ t.fl = 0 ∧ t.pc = 3) = true := by decide

/-- V45; V50 wraps SP. -/
theorem test_step_add :
    answers (step (small (regsOf 200 100 0xF4) 0 [(0, 0xA0), (2, 1)])) (fun t => t.reg 0 = 44 ∧ t.pc = 3) = true ∧
      answers (step (small (regsOf 0x10 0 0xF4) 0 [(0, 0xA0), (1, 7)])) (fun t => t.sp = 0x04 ∧ t.run = .running) =
        true := by decide

/-- V51; V54 is unsigned. -/
theorem test_step_cmp :
    answers (step (small (regsOf 3 5 0xF4) 0 [(0, 0xA7), (2, 1)])) (fun t => t.fl = 0b100 ∧ t.reg 0 = 3) = true ∧
      answers (step (small (regsOf 0x80 0x7F 0xF4) 0 [(0, 0xA7), (2, 1)])) (fun t => t.fl = 0b010) = true := by decide

/-- V58 stores the decremented SP; V59 faults. -/
theorem test_step_push :
    answers (step (small (regsOf 42 0 0xF4) 0 [(0, 0x45), (1, 7)]))
        (fun t => t.sp = 0xF3 ∧ t.mem.read 0xF3 = 0xF3 ∧ t.pc = 2) = true ∧
      answers (step (small (regsOf 42 0 0) 0 [(0, 0x45)])) (faultedWith .stackOverflow 0 0) = true := by decide

/-- V65 keeps the stack cell; V68 adds 1 to the popped SP. -/
theorem test_step_pop :
    answers (step (small (regsOf 0 0 0xF3) 0 [(0, 0x46), (1, 1), (0xF3, 42)]))
        (fun t => t.reg 1 = 42 ∧ t.sp = 0xF4 ∧ t.mem.read 0xF3 = 42) = true ∧
      answers (step (small (regsOf 0 0 0xF0) 0 [(0, 0x46), (1, 7), (0xF0, 0x33)])) (fun t => t.sp = 0x34) = true := by
  decide

/-- V60; V62 has no return address. -/
theorem test_step_call :
    answers (step (small (regsOf 0 0x0B 0xF4) 6 [(6, 0x50), (7, 1)]))
        (fun t => t.sp = 0xF3 ∧ t.mem.read 0xF3 = 8 ∧ t.pc = 0x0B) = true ∧
      answers (step (small (regsOf 0 0 0xF4) 254 [(254, 0x50)])) (faultedWith .addressRange 256 254) = true := by decide

/-- V69a; V69b faults. -/
theorem test_step_ret :
    answers (step (small (regsOf 0 0 0xF3) 0 [(0, 0x11), (0xF3, 0x12)])) (fun t => t.sp = 0xF4 ∧ t.pc = 0x12) = true ∧
      answers (step (small (regsOf 0 0 0xFF) 0 [(0, 0x11)])) (faultedWith .stackUnderflow 255 0) = true := by decide

/-- V70 and V72, with R1 for R3. -/
theorem test_step_jeq :
    answers (step { small (regsOf 0 0x20 0xF4) 8 [(8, 0x55), (9, 1)] with fl := 0b001 }) (fun t => t.pc = 0x20) = true ∧
      answers (step { small (regsOf 0 0x20 0xF4) 8 [(8, 0x55), (9, 1)] with fl := 0b010 }) (fun t => t.pc = 0x0A) =
        true := by decide

/-- V73 and V75, with R1 for R3. -/
theorem test_step_jne :
    answers (step { small (regsOf 0 0x20 0xF4) 8 [(8, 0x56), (9, 1)] with fl := 0b001 }) (fun t => t.pc = 0x0A) = true ∧
      answers (step { small (regsOf 0 0x20 0xF4) 8 [(8, 0x56), (9, 1)] with fl := 0b010 }) (fun t => t.pc = 0x20) =
        true := by decide

/-- V80, with R1 for R2. -/
theorem test_step_jmp :
    answers (step (small (regsOf 0 5 0xF4) 5 [(5, 0x54), (6, 1)])) (fun t => t.pc = 5 ∧ t.run = .running) = true := by
  decide

/-- 10_state.md R28: a read before any write ends the step like a fault, with none of the instruction's effect; LDI
reads no register and gives its own a value. -/
theorem test_step_unwritten_read :
    answers (step { small (regsOf 9 0 0xF4) 0 [(0, 0x47)] with unwritten := Vector.replicate 7 true })
        (fun t => t.unwrittenRead ∧ t.out = [] ∧ t.pc = 0 ∧ t.run = .running) = true ∧
      answers (step { small (regsOf 9 0 0xF4) 0 [(0, 0x82), (2, 8)] with unwritten := Vector.replicate 7 true })
        (fun t => t.unwrittenRead = false ∧ t.holds 0 ∧ t.holds 1 = false) = true := by decide

/-- 00_scope.md R9, "treats it like a fault": no further step is taken after it. -/
theorem test_step_after_unwritten_read :
    answers (step { small (regsOf 9 0 0xF4) 0 [(0, 0x47)] with unwrittenRead := true })
      (fun t => t.unwrittenRead ∧ t.out = [] ∧ t.pc = 0) = true := by decide

/-- V15, V16, V17: past the end of memory. -/
theorem test_step_past_the_end :
    answers (step (small (regsOf 0 0 0xF4) 256 [])) (faultedWith .addressRange 256 256) = true ∧
      answers (step (small (regsOf 0 0 0xF4) 255 [(255, 0x47)])) (faultedWith .addressRange 256 255) = true ∧
      answers (step (small (regsOf 0 0 0xF4) 254 [(254, 0x82)])) (faultedWith .addressRange 256 254) = true := by decide

/-- V20: the over-fetch check comes before the opcode check. -/
theorem test_step_overfetch :
    answers (step { small (regsOf 0 0 0xF4) 255 [] with params := ⟨true, true⟩ }) (faultedWith .addressRange 256 255) =
      true := by decide

/-- V12, V23, V26: the order of the checks. -/
theorem test_step_check_order :
    answers (step (small (regsOf 0 0 0xF4) 0 [(0, 0xA1), (1, 9), (2, 9)])) (faultedWith .illegalOpcode 0xA1 0) = true ∧
      answers (step (small (regsOf 0 0 0xF4) 0 [(0, 0xA7), (1, 9), (2, 200)])) (faultedWith .illegalRegister 9 0) =
        true ∧
      answers (step (small (regsOf 0 0 0xF4) 0 [(0, 0x55), (1, 9)])) (faultedWith .illegalRegister 9 0) = true := by
  decide

/-- 70_reset_and_hazards.md R108-R110: a launch places the image from address 0. -/
theorem test_launch :
    answers (launch (small (regsOf 1 2 3) 9 [(200, 7)]) [0x47, 0x00, 0x01])
      (fun t => t.mem = [(0, 0x47), (2, 0x01)] ∧ t.sp = 0xF4 ∧ t.pc = 0 ∧ t.run = .running) = true := by decide

/-! ### Witnesses: for each statement with hypotheses, states and operands that meet all of them together, clause by
clause at the ends of its ranges -/

/-- A Running core at `pc` with SP `sp`, registers 0 and memory `mem`. -/
def coreAt (pc : Word9) (sp : Byte) (mem : Memory) : State := small (regsOf 0 0 sp) pc mem

/-- The same core, OVERFETCH_FAULT set. -/
def strictAt (pc : Word9) (sp : Byte) (mem : Memory) : State := { coreAt pc sp mem with params := ⟨true, true⟩ }

/-- The same core with RESET_REGS_DEFINED false: no register but SP holds a value, and FL none. -/
def unwrittenAt (pc : Word9) (sp : Byte) (mem : Memory) : State :=
  { coreAt pc sp mem with params := ⟨false, false⟩, unwritten := Vector.replicate 7 true, flUnwritten := true }

theorem reset_holds : ∀ r : Reg, State.reset.holds r = true := by decide

/-- A Running core with default parameters meets the invariant as soon as its memory, pc, run state and latch do. -/
theorem coreAt_inv (pc : Word9) (sp : Byte) (mem : Memory) (hm : mem.wf) (hpc : pc.toNat ≤ 256) : (coreAt pc sp mem).Inv where
  memWf := hm
  pcRange := hpc
  flLegal := fun _ => .inl rfl
  latchLegal := rfl
  latchIffFaulted := ⟨fun _ h => (nomatch h), fun _ => rfl⟩
  endsOnce := fun h => nomatch h
  stoppedPort := fun _ => rfl
  portIsLast := fun _ h => nomatch h
  allHeld := fun _ => ⟨reset_holds, rfl, rfl⟩
  heldInReset := fun h => nomatch h

theorem halted_inv (pc : Word9) (sp : Byte) (mem : Memory) (hm : mem.wf) (hpc : pc.toNat ≤ 256) :
    ({ coreAt pc sp mem with run := .halted } : State).Inv where
  memWf := hm
  pcRange := hpc
  flLegal := fun _ => .inl rfl
  latchLegal := rfl
  latchIffFaulted := ⟨fun _ h => (nomatch h), fun _ => rfl⟩
  endsOnce := fun h => nomatch h
  stoppedPort := fun _ => rfl
  portIsLast := fun _ h => nomatch h
  allHeld := fun _ => ⟨reset_holds, rfl, rfl⟩
  heldInReset := fun h => nomatch h

theorem faulted_inv (pc : Word9) (sp : Byte) (mem : Memory) (hm : mem.wf) (hpc : pc.toNat ≤ 256) :
    ((coreAt pc sp mem).raise .addressRange 256).Inv where
  memWf := hm
  pcRange := hpc
  flLegal := fun _ => .inl rfl
  latchLegal := rfl
  latchIffFaulted := ⟨fun h => (nomatch h), fun h => (h rfl).elim⟩
  endsOnce := fun h => nomatch h
  stoppedPort := fun _ => rfl
  portIsLast := fun _ h => nomatch h
  allHeld := fun _ => ⟨reset_holds, rfl, rfl⟩
  heldInReset := fun h => nomatch h

/-- An instruction's bytes at the pc, as a decidable fact. -/
theorem liesAtPc_of {i : Instr} {s : State}
    (h : s.pc.toNat + (encode i).length ≤ 256 ∧
      ∀ k (h : k < (encode i).length), s.mem.read (s.pc.toNat + k) = (encode i)[k]) : LiesAtPc i s := h

theorem witness_OpcodeBitsGiveCountAndSetsPc :
    rom 0x01 = some ⟨.hlt, .f0, 0, false⟩ ∧ rom 0x54 = some ⟨.jmp, .f1R, 1, true⟩ ∧
      rom 0xA7 = some ⟨.cmp, .f2RR, 2, false⟩ := by decide

theorem witness_ThirteenOpcodesAreValid : opAA 0xC0 = 3 ∧ opAA 0xFF = 3 := by decide

theorem witness_StepRunsTheInstructionAtPc :
    ((strictAt 253 1 [(253, 0x82)]).TakesSteps ∧ LiesAtPc (.ldi 0 0) (strictAt 253 1 [(253, 0x82)]) ∧
        OverfetchPasses (strictAt 253 1 [(253, 0x82)])) ∧
      ((coreAt 255 1 [(255, 1)]).TakesSteps ∧ LiesAtPc .hlt (coreAt 255 1 [(255, 1)]) ∧
        OverfetchPasses (coreAt 255 1 [(255, 1)])) :=
  ⟨⟨⟨rfl, rfl⟩, liesAtPc_of (by decide), .inr (by decide)⟩, ⟨⟨rfl, rfl⟩, liesAtPc_of (by decide), .inl rfl⟩⟩

theorem witness_StepFollowsTheBytesAtPc :
    ((coreAt 255 1 [(255, 1)]).TakesSteps ∧ OverfetchPasses (coreAt 255 1 [(255, 1)]) ∧
      decode (bytesFromPc (coreAt 255 1 [(255, 1)])) = .ok (.hlt, [])) ∧
      decode (bytesFromPc (coreAt 255 1 [])) = .error (.illegalOpcode 0) ∧
      decode (bytesFromPc (coreAt 255 1 [(255, 0x47)])) = .error .truncated :=
  ⟨⟨⟨rfl, rfl⟩, .inl rfl, by decide⟩, by decide, by decide⟩

theorem witness_FetchPastTheEndFaults :
    (coreAt 256 1 []).TakesSteps ∧ 255 < (coreAt 256 1 []).pc.toNat := by decide

theorem witness_OverfetchFaultsBeforeDecode :
    ∀ pc ∈ [254, 255], (strictAt pc 1 []).TakesSteps ∧ (strictAt pc 1 []).params.overfetchFault = true ∧
      254 ≤ (strictAt pc 1 []).pc.toNat ∧ (strictAt pc 1 []).pc.toNat ≤ 255 := by decide

theorem witness_InvalidOpcodeFaults :
    (∀ op ∈ [0x00, 0xFF, 0xC2], rom ((coreAt 255 1 (Memory.write [] 255 op)).mem.read 255) = none) ∧
      OverfetchPasses (coreAt 255 1 []) ∧ (coreAt 255 1 []).TakesSteps := ⟨by decide, .inl rfl, rfl, rfl⟩

theorem witness_OperandPastTheEndFaults :
    (rom ((coreAt 255 1 [(255, 0x47)]).mem.read 255) = some ⟨.prn, .f1R, 1, false⟩ ∧ 255 < 255 + 1) ∧
      rom ((strictAt 254 1 [(254, 0x82)]).mem.read 254) = some ⟨.ldi, .f2RI, 2, false⟩ ∧ 255 < 254 + 2 ∧
      (strictAt 254 1 [(254, 0x82)]).TakesSteps := by decide

theorem witness_FirstBadRegisterByteFaults :
    (Instr.mul 8 255).registerBytes.find? (fun x => !isRegisterByte x) = some 8 ∧
      (Instr.mul 7 255).registerBytes.find? (fun x => !isRegisterByte x) = some 255 ∧
      (Instr.jeq 8).registerBytes.find? (fun x => !isRegisterByte x) = some 8 := by decide

theorem witness_StoppedCoreHolds :
    (∃ s : State, s.Inv ∧ s.run = .halted ∧ s.pc = 256) ∧ ∃ s : State, s.Inv ∧ s.run = .faulted ∧ s.pc = 256 :=
  ⟨⟨_, halted_inv 256 1 [(255, 1)] (by decide) (by decide), rfl, rfl⟩,
    ⟨_, faulted_inv 256 1 [] (by decide) (by decide), rfl, rfl⟩⟩

theorem witness_FaultsArePrecise :
    ∃ s t : State, s.TakesSteps ∧ s.outPort = some 5 ∧ step s = .next t ∧ t.run = .faulted ∧
      t.faultCause = .stackOverflow :=
  ⟨{ coreAt 0 0 [(0, 0x45)] with outPort := some 5 }, (coreAt 0 0 [(0, 0x45)]).raise .stackOverflow 0, ⟨rfl, rfl⟩, rfl, rfl, rfl, rfl⟩

theorem witness_HltHalts :
    (coreAt 255 1 []).pc.toNat ≤ 255 ∧ ((coreAt 256 1 []).TakesSteps ∧ (coreAt 256 1 []).pc.toNat = 256) ∧
      ∀ pc ∈ [254, 255], (strictAt pc 1 []).TakesSteps ∧ (strictAt pc 1 []).params.overfetchFault = true ∧
        254 ≤ (strictAt pc 1 []).pc.toNat ∧ (strictAt pc 1 []).pc.toNat ≤ 255 := by decide

/-- For the register instructions: a byte 8, the first that is no register, and the ends of the register range, all
holding a value. -/
theorem witness_register_bytes :
    (7 : Nat) < (8 : Byte).toNat ∧ (0 : Byte).toNat = (0 : Reg).val ∧ (7 : Byte).toNat = (7 : Reg).val ∧
      (coreAt 0 1 []).holds 0 = true ∧ (coreAt 0 1 []).holds 7 = true := by decide

theorem witness_LdiLoadsTheImmediate :
    (7 : Nat) < (8 : Byte).toNat ∧ DoesNotFit 0x82 2 (coreAt 254 1 [(254, 0x82)]) ∧
      DoesNotFit 0x82 2 (coreAt 255 1 [(255, 0x82)]) ∧ (7 : Byte).toNat = (7 : Reg).val ∧
      (coreAt 253 1 []).pc.toNat ≤ 253 := by
  unfold DoesNotFit; decide

theorem witness_PrnEmitsTheRegister :
    (7 : Nat) < (8 : Byte).toNat ∧ DoesNotFit 0x47 1 (coreAt 255 1 [(255, 0x47)]) ∧ (7 : Byte).toNat = (7 : Reg).val ∧
      (coreAt 254 1 []).holds 7 = true ∧ (coreAt 254 1 []).pc.toNat ≤ 254 := by
  unfold DoesNotFit; decide

theorem witness_MulMultipliesModulo256 :
    (7 : Nat) < (8 : Byte).toNat ∧ (7 : Byte).toNat ≤ 7 ∧ DoesNotFit 0xA2 2 (coreAt 254 1 [(254, 0xA2)]) ∧
      (7 : Byte).toNat = (7 : Reg).val ∧ (coreAt 253 1 []).holds 7 = true ∧ (coreAt 253 1 []).holds 0 = true ∧
      (coreAt 253 1 []).pc.toNat ≤ 253 := by
  unfold DoesNotFit; decide

theorem witness_AddAddsModulo256 :
    (7 : Nat) < (8 : Byte).toNat ∧ (7 : Byte).toNat ≤ 7 ∧ DoesNotFit 0xA0 2 (coreAt 254 1 [(254, 0xA0)]) ∧
      (7 : Byte).toNat = (7 : Reg).val ∧ (coreAt 253 1 []).holds 7 = true ∧ (coreAt 253 1 []).holds 0 = true ∧
      (coreAt 253 1 []).pc.toNat ≤ 253 := by
  unfold DoesNotFit; decide

theorem witness_CmpSetsOneFlag :
    (7 : Nat) < (8 : Byte).toNat ∧ (7 : Byte).toNat ≤ 7 ∧ DoesNotFit 0xA7 2 (coreAt 254 1 [(254, 0xA7)]) ∧
      (coreAt 253 1 []).pc.toNat ≤ 253 ∧ ((coreAt 253 1 []).reg 0).toNat < ((coreAt 253 1 []).reg 7).toNat ∧
      (coreAt 253 1 []).reg 0 = (coreAt 253 1 []).reg 1 ∧
      (coreAt 253 1 []).holds 0 = true ∧ (coreAt 253 1 []).holds 1 = true ∧ (coreAt 253 1 []).holds 7 = true := by
  unfold DoesNotFit; decide

theorem witness_PushStoresBelowSp :
    DoesNotFit 0x45 1 (coreAt 255 1 [(255, 0x45)]) ∧ (coreAt 254 0 []).sp = 0 ∧
      ((coreAt 254 1 []).sp ≠ 0 ∧ (coreAt 254 1 []).holds 0 = true ∧ (coreAt 254 1 []).holds 7 = true ∧
        (coreAt 254 1 []).mem.wf ∧ (coreAt 254 1 []).pc.toNat ≤ 254) := by
  unfold DoesNotFit; decide

theorem witness_PopLoadsFromSp :
    DoesNotFit 0x46 1 (coreAt 255 1 [(255, 0x46)]) ∧ (coreAt 254 255 []).sp = 255 ∧
      ((coreAt 254 254 []).sp ≠ 255 ∧ (coreAt 254 254 []).pc.toNat ≤ 254 ∧ (6 : Reg) ≠ 7 ∧ (6 : Byte).toNat = (6 : Reg).val) ∧
      (coreAt 254 254 [(254, 255)]).mem.read (coreAt 254 254 [(254, 255)]).sp.toNat = 255 ∧
      (coreAt 254 255 [(255, 254)]).mem.read (coreAt 254 255 [(255, 254)]).sp.toNat ≠ 255 := by
  unfold DoesNotFit; decide

theorem witness_CallPushesTheReturnAddress :
    DoesNotFit 0x50 1 (coreAt 255 1 [(255, 0x50)]) ∧ (coreAt 254 1 []).pc.toNat = 254 ∧
      ((coreAt 253 0 []).pc.toNat ≤ 253 ∧ (coreAt 253 0 []).sp = 0) ∧
      ((coreAt 253 1 []).pc.toNat ≤ 253 ∧ (coreAt 253 1 []).sp ≠ 0 ∧ (coreAt 253 1 []).holds 0 = true ∧
        (coreAt 253 1 []).holds 7 = true ∧ (coreAt 253 1 []).mem.wf) := by
  unfold DoesNotFit; decide

theorem witness_RetPopsThePc : (coreAt 0 255 []).sp = 255 ∧ (coreAt 0 254 []).sp ≠ 255 := by decide

theorem witness_JeqJumpsWhenEqual :
    DoesNotFit 0x55 1 (coreAt 255 1 [(255, 0x55)]) ∧
      (({ coreAt 255 1 [] with fl := 0b001 } : State).flUnwritten = false ∧
        ({ coreAt 255 1 [] with fl := 0b001 } : State).flagE = true ∧ (coreAt 255 1 []).holds 7 = true) ∧
      ((coreAt 254 1 []).flUnwritten = false ∧ (coreAt 254 1 []).flagE = false ∧ (coreAt 254 1 []).TakesSteps ∧
        (coreAt 254 1 []).pc.toNat = 254) := by
  unfold DoesNotFit; decide

theorem witness_JneJumpsWhenNotEqual :
    DoesNotFit 0x56 1 (coreAt 255 1 [(255, 0x56)]) ∧
      ((coreAt 255 1 []).flUnwritten = false ∧ (coreAt 255 1 []).flagE = false ∧ (coreAt 255 1 []).holds 7 = true) ∧
      (({ coreAt 254 1 [] with fl := 0b001 } : State).flUnwritten = false ∧
        ({ coreAt 254 1 [] with fl := 0b001 } : State).flagE = true ∧ (coreAt 254 1 []).pc.toNat ≤ 254) := by
  unfold DoesNotFit; decide

theorem witness_JmpJumpsToTheRegister :
    (DoesNotFit 0x54 1 (coreAt 255 1 [(255, 0x54)]) ∧ (7 : Byte).toNat = (7 : Reg).val ∧
      (coreAt 254 254 [(254, 0x54), (255, 7)]).holds 7 = true ∧
      ((coreAt 254 254 [(254, 0x54), (255, 7)]).reg 7).toNat = (coreAt 254 254 [(254, 0x54), (255, 7)]).pc.toNat ∧
      (coreAt 254 254 [(254, 0x54), (255, 7)]).TakesSteps) ∧
      LiesAtPc (.jmp 7) (coreAt 254 254 [(254, 0x54), (255, 7)]) ∧
      OverfetchPasses (coreAt 254 254 [(254, 0x54), (255, 7)]) :=
  ⟨by unfold DoesNotFit; decide, liesAtPc_of (by decide), .inl rfl⟩

theorem witness_OnlyCmpWritesFlags :
    ∃ t, exec .hlt (coreAt 0 1 []) = .next t ∧ ∀ a b, Instr.hlt ≠ .cmp a b := ⟨_, rfl, fun _ _ h => nomatch h⟩

theorem witness_OnlyPushAndCallWriteMemory :
    (∃ t, exec (.push 0) (coreAt 0 1 []) = .next t) ∧
      ∃ t, exec .ret (coreAt 0 1 []) = .next t ∧ (∀ a, Instr.ret ≠ .push a) ∧ ∀ a, Instr.ret ≠ .call a :=
  ⟨⟨_, rfl⟩, _, rfl, fun _ h => (nomatch h), fun _ h => nomatch h⟩

theorem witness_OnlyPrnEmits :
    (∃ t, exec (.prn 7) (coreAt 0 1 []) = .next t) ∧
      ∃ t, exec .ret (coreAt 0 1 []) = .next t ∧ ∀ a, Instr.ret ≠ .prn a :=
  ⟨⟨_, rfl⟩, _, rfl, fun _ h => nomatch h⟩

theorem witness_OnlyHltHalts :
    (coreAt 0 1 []).run = .running ∧ (∃ t, exec .hlt (coreAt 0 1 []) = .next t) ∧
      ∃ t, exec (.jmp 0) (coreAt 0 1 []) = .next t ∧ t.run ≠ .faulted :=
  ⟨rfl, ⟨_, rfl⟩, _, rfl, by decide⟩

theorem witness_RegistersWrittenFollowTheTable :
    ∃ t, exec (.pop 0) (coreAt 0 1 []) = .next t ∧ (6 : Reg).val ∉ writtenRegs (.pop 0) := ⟨_, rfl, by decide⟩

theorem witness_PcAdvancesPastTheInstruction :
    (encode (.ldi 0 0)).head? = some 0x82 ∧ opC 0x82 = false ∧
      (coreAt 253 1 []).pc.toNat + (encode (.ldi 0 0)).length ≤ 256 ∧
      ∃ t, exec (.ldi 0 0) (coreAt 253 1 []) = .next t ∧ t.run ≠ .faulted ∧ t.unwrittenRead = false :=
  ⟨rfl, by decide, by decide, _, rfl, by decide, rfl⟩

theorem witness_ParametersNeverChange : ∃ t, step (coreAt 0 1 [(0, 1)]) = .next t := ⟨_, rfl⟩

theorem witness_StepKeepsInvariant :
    ∃ s t : State, s.Inv ∧ step s = .next t ∧ t.out = [1] :=
  ⟨coreAt 254 1 [(254, 0x47), (255, 7)], ((coreAt 254 1 [(254, 0x47), (255, 7)]).emit 1).advance 1,
    coreAt_inv _ _ _ (by decide) (by decide), rfl, rfl⟩

theorem witness_ResetEdgeKeepsInvariant : (coreAt 256 1 [(255, 9)]).Inv := coreAt_inv _ _ _ (by decide) (by decide)

/-- A core with RESET_REGS_DEFINED false meets the invariant too, right after a reset. -/
theorem unwrittenAt_inv (pc : Word9) (sp : Byte) (mem : Memory) (hm : mem.wf) (hpc : pc.toNat ≤ 256) :
    (unwrittenAt pc sp mem).Inv where
  memWf := hm
  pcRange := hpc
  flLegal := fun h => nomatch h
  latchLegal := rfl
  latchIffFaulted := ⟨fun _ h => (nomatch h), fun _ => rfl⟩
  endsOnce := fun h => nomatch h
  stoppedPort := fun _ => rfl
  portIsLast := fun _ h => nomatch h
  allHeld := fun h => nomatch h
  heldInReset := fun h => nomatch h

theorem witness_DefinedRegistersNeverEndTheRun :
    ∃ s t : State, s.Inv ∧ s.params.resetRegsDefined = true ∧ s.TakesSteps ∧ step s = .next t ∧ t.out = [0] :=
  ⟨coreAt 254 1 [(254, 0x47)], _, coreAt_inv _ _ _ (by decide) (by decide), rfl, ⟨rfl, rfl⟩, rfl, rfl⟩

theorem witness_StepEndsInOneOutcome :
    (∃ s t : State, s.Inv ∧ s.TakesSteps ∧ step s = .next t ∧ outcomeOf t = .unwrittenRead) ∧
      (∃ s t : State, s.Inv ∧ s.TakesSteps ∧ step s = .next t ∧ outcomeOf t = .faulted) ∧
      ∃ s t : State, s.Inv ∧ s.TakesSteps ∧ step s = .next t ∧ outcomeOf t = .halted :=
  ⟨⟨unwrittenAt 254 1 [(254, 0x47)], _, unwrittenAt_inv _ _ _ (by decide) (by decide), ⟨rfl, rfl⟩, rfl, rfl⟩,
    ⟨coreAt 256 1 [], _, coreAt_inv _ _ _ (by decide) (by decide), ⟨rfl, rfl⟩, rfl, rfl⟩,
    ⟨coreAt 255 1 [(255, 1)], _, coreAt_inv _ _ _ (by decide) (by decide), ⟨rfl, rfl⟩, rfl, rfl⟩⟩

theorem witness_UnwrittenReadsEndTheStep :
    ∃ s t : State, s.TakesSteps ∧ exec (.prn 6) s = .next t ∧ t.run ≠ .faulted ∧ ReadsUnwritten (.prn 6) s ∧
      t.unwrittenRead = true :=
  ⟨unwrittenAt 0 1 [], _, ⟨rfl, rfl⟩, rfl, by decide, .inl ⟨6, by decide, by decide⟩, rfl⟩

theorem witness_UnwrittenOperandsEndTheStep :
    (0 : Byte).toNat = (0 : Reg).val ∧ (7 : Byte).toNat = (7 : Reg).val ∧
      ((unwrittenAt 253 1 []).holds 0 = false ∧ (unwrittenAt 253 1 []).holds 6 = false ∧
        (unwrittenAt 253 1 []).sp ≠ 0 ∧ (unwrittenAt 253 1 []).pc.toNat ≤ 253 ∧
        (unwrittenAt 253 1 []).flUnwritten = true) ∧
      ({ unwrittenAt 0 1 [] with fl := 0b001, flUnwritten := false } : State).flagE = true ∧
      ({ unwrittenAt 0 1 [] with fl := 0b100, flUnwritten := false } : State).flagE = false ∧
      ({ unwrittenAt 0 1 [] with fl := 0b100, flUnwritten := false } : State).holds 0 = false := by decide

theorem witness_UnwrittenReadEndsTheRun :
    ∃ s t : State, s.Inv ∧ s.TakesSteps ∧ step s = .next t ∧ t.unwrittenRead = true :=
  ⟨unwrittenAt 254 1 [(254, 0x55)], _, unwrittenAt_inv _ _ _ (by decide) (by decide), ⟨rfl, rfl⟩, rfl, rfl⟩

theorem witness_WritingGivesAValue :
    (∃ s t : State, s.run = .running ∧ s.holds 6 = false ∧ exec (.ldi 6 0) s = .next t ∧ t.run ≠ .faulted ∧
        t.unwrittenRead = false ∧ (6 : Reg).val ∈ writtenRegs (.ldi 6 0)) ∧
      ∃ s t : State, s.run = .running ∧ s.flUnwritten = true ∧ exec (.cmp 7 7) s = .next t ∧ t.run ≠ .faulted ∧
        t.unwrittenRead = false :=
  ⟨⟨unwrittenAt 0 1 [], _, rfl, by decide, rfl, by decide, rfl, by decide⟩,
    ⟨unwrittenAt 0 1 [], _, rfl, rfl, rfl, by decide, rfl⟩⟩

theorem witness_ResetValues : (6 : Reg) ≠ 7 ∧ Config.Params.default.resetRegsDefined = true := by decide

theorem witness_ResetEdgeSetsTheState :
    (coreAt 5 1 [(0, 3), (255, 9)]).mem.wf ∧
      ({ loadWe := true, loadAddr := 255, loadData := 0 } : LoadPins).loadWe = true ∧
      ({ coreAt 5 1 [] with rstSeen := true } : State).rstSeen = true := by decide

theorem witness_LaunchLoadsTheImage : (List.replicate 256 (1 : Byte)).length ≤ 256 ∧ ([] : List Byte).length ≤ 256 :=
  ⟨List.length_replicate.le, by decide⟩

theorem witness_RefusedAndEmptyLaunches : 256 < (List.replicate 257 (1 : Byte)).length := by
  rw [List.length_replicate]; decide

theorem witness_CanonicalMemoryIsUnique :
    Memory.wf [(0, 1), (255, 2)] ∧
      Memory.wf ((((Memory.write [] 255 2).write 0 7).write 3 4).write 0 1 |>.write 3 0) ∧
      ∀ a, Memory.read [(0, 1), (255, 2)] a =
        Memory.read ((((Memory.write [] 255 2).write 0 7).write 3 4).write 0 1 |>.write 3 0) a :=
  ⟨by decide, by decide, fun _ => rfl⟩

theorem witness_StackLifo :
    [(0 : Reg), 6].length = [(2 : Reg), 2].length ∧
      (∀ r ∈ [(0 : Reg), 6], r ≠ 7 ∧ (coreAt 0 2 [(200, 1)]).holds r = true) ∧ (∀ r ∈ [(2 : Reg), 2], r ≠ 7) ∧
      [(0 : Reg), 6].length ≤ (coreAt 0 2 [(200, 1)]).sp.toNat ∧ (coreAt 0 2 [(200, 1)]).mem.wf := by decide

theorem witness_CallThenRetResumes :
    (7 : Byte).toNat = (7 : Reg).val ∧ (coreAt 253 1 [(9, 9)]).holds 7 = true ∧ (coreAt 253 1 [(9, 9)]).pc.toNat ≤ 253 ∧
      (coreAt 253 1 [(9, 9)]).sp ≠ 0 ∧ (coreAt 253 1 [(9, 9)]).mem.wf := by decide

theorem witness_CompareThenBranch :
    (0 : Byte).toNat = (0 : Reg).val ∧ (1 : Byte).toNat = (1 : Reg).val ∧ (7 : Byte).toNat = (7 : Reg).val ∧
      (coreAt 251 1 []).holds 0 = true ∧ (coreAt 251 1 []).holds 1 = true ∧ (coreAt 251 1 []).holds 7 = true ∧
      (coreAt 251 1 []).pc.toNat ≤ 251 ∧ (coreAt 251 1 []).reg 0 = (coreAt 251 1 []).reg 1 ∧
      (coreAt 251 1 []).reg 0 ≠ (coreAt 251 1 []).reg 7 := by decide

theorem witness_OutValidPulsesForPrnOnly :
    (∃ t, step (coreAt 254 1 [(254, 0x47), (255, 7)]) = .next t ∧ t.outValidPin = true) ∧
      ∃ t, step (coreAt 255 1 [(255, 1)]) = .next t ∧ t.outValidPin = false := ⟨⟨_, rfl, rfl⟩, _, rfl, rfl⟩

theorem witness_PushIsSeenByTheNextFetch :
    (0 : Byte).toNat = (0 : Reg).val ∧ (0 : Reg) ≠ 7 ∧ (coreAt 252 255 []).holds 0 = true ∧ (coreAt 252 255 []).mem.wf ∧
      (coreAt 252 255 []).pc.toNat ≤ 253 ∧ (coreAt 252 255 []).sp.toNat = (coreAt 252 255 []).pc.toNat + 3 := by decide

theorem witness_OtherBytesHaveNoEffect :
    ∃ (s t : State) (m : Memory), s.TakesSteps ∧ s.pc.toNat ≤ 255 ∧ OverfetchPasses s ∧
      decode (bytesFromPc s) = .ok (.jmp 0, [0]) ∧ Instr.jmp 0 ≠ .ret ∧ (∀ a, Instr.jmp 0 ≠ .pop a) ∧
      (∀ k, k < (encode (.jmp 0)).length → m.read (s.pc.toNat + k) = s.mem.read (s.pc.toNat + k)) ∧
      step s = .next t ∧ m ≠ s.mem :=
  ⟨coreAt 253 1 [(253, 0x54)], (coreAt 253 1 [(253, 0x54)]).setPc 0, [(253, 0x54), (255, 0xFF)], ⟨rfl, rfl⟩, by decide, .inl rfl,
    by decide, by decide, fun _ h => (nomatch h), by decide, rfl, by decide⟩

theorem witness_RunEndIsUnique :
    ∃ s t : State, s.Inv ∧ s.TakesSteps ∧ Ends s t :=
  ⟨coreAt 255 1 [(255, 1)], (coreAt 255 1 [(255, 1)]).halt.advance 0, coreAt_inv _ _ _ (by decide) (by decide),
    ⟨rfl, rfl⟩, 1, rfl, by decide⟩

end Sys2Proof.Tests
end

section
/-! What decoded bytes are, and how a step of a core that takes steps can end (spec 30_encoding.md R50,
40_execution_cycle.md R55-R64, 00_scope.md R9). -/

namespace Sys2Proof

/-! ### Decoded bytes -/

/-- An operation with its operand bytes is encoded as its row's opcode and as many operand bytes as the row counts. -/
theorem encode_instr_of_row {op : Byte} {e : RomEntry} (h : (op, e) ∈ romTable) (a b : Byte) :
    encode (e.operation.instr a b) = op :: [a, b].take e.count := by
  have rows : ∀ row ∈ romTable, encode (row.2.operation.instr a b) = row.1 :: [a, b].take row.2.count := by
    simp only [romTable, List.forall_mem_cons]
    refine ⟨rfl, rfl, rfl, rfl, rfl, rfl, rfl, rfl, rfl, rfl, rfl, rfl, rfl, List.forall_mem_nil _⟩
  exact rows _ h

/-- The operand bytes of a decoded instruction are those that stand before the rest. -/
theorem decodeOperands_ok {e : RomEntry} {bs rest : List Byte} {i : Instr}
    (h : decodeOperands e bs = .ok (i, rest)) :
    ∃ a b, i = e.operation.instr a b ∧ bs = [a, b].take e.count ++ rest := by
  unfold decodeOperands at h
  split at h <;> cases h
  next hc => exact ⟨0, 0, rfl, by simp [hc]⟩
  next a hc => exact ⟨a, 0, rfl, by simp [hc]⟩
  next a b hc => exact ⟨a, b, rfl, by simp [hc]⟩

/-- Bytes that decode to an instruction are its encoding followed by the rest (30_encoding.md R50). -/
theorem eq_encode_append_of_decode {bs rest : List Byte} {i : Instr} (h : decode bs = .ok (i, rest)) :
    bs = encode i ++ rest := by
  cases bs with
  | nil => cases h
  | cons op operands =>
    rw [decode] at h
    cases hr : rom op with
    | none => rw [hr] at h; cases h
    | some e =>
      rw [hr] at h
      obtain ⟨a, b, rfl, rfl⟩ := decodeOperands_ok h
      rw [encode_instr_of_row (rom_row hr)]
      rfl

namespace Machine

variable {i : Instr} {s t : State}

/-- An instruction that decodes from the bytes at the pc lies in memory. -/
theorem encode_fits_of_decode {rest : List Byte} (hpc : s.pc.toNat ≤ 255)
    (h : decode (bytesFromPc s) = .ok (i, rest)) : s.pc.toNat + (encode i).length ≤ 256 := by
  have hlen := congrArg List.length (eq_encode_append_of_decode h)
  simp only [bytesFromPc, List.length_map, List.length_range', List.length_append] at hlen
  omega

/-! ### What every effect keeps -/

theorem Effect.params_eq (h : Effect i s t) : t.params = s.params := by
  cases h <;> rfl

theorem Effect.unwrittenRead_eq (h : Effect i s t) : t.unwrittenRead = s.unwrittenRead := by
  cases h <;> rfl

/-- The effect of HLT halts, and every other effect leaves the run state (10_state.md R17). -/
theorem Effect.run_eq_or_halted (h : Effect i s t) : t.run = s.run ∨ t.run = .halted := by
  cases h with
  | hlt => exact .inr rfl
  | _ => exact .inl rfl

theorem Effect.run_ne_faulted (h : Effect i s t) (hs : s.run = .running) : t.run ≠ .faulted := by
  rcases h.run_eq_or_halted with e | e <;> simp [e, hs]

/-! ### How a step ends -/

/-- The ways a step of a core that takes steps can end in `t`: with the effect of an instruction that lies in memory, in
fault entry by the fetch or by the instruction, or in UnwrittenRead (00_scope.md R9). -/
inductive RunningStep (s : State) : State → Prop where
  | effect {i : Instr} {t : State} (fits : s.pc.toNat + (encode i).length ≤ 256) (h : Effect i s.beginStep t) :
      RunningStep s t
  | fetchFault {c : FaultCause} {info : Word9} (h : FetchReason s.beginStep c info) :
      RunningStep s (s.beginStep.raise c info)
  | execFault {i : Instr} {c : FaultCause} {info : Word9} (fits : s.pc.toNat + (encode i).length ≤ 256)
      (h : FaultReason i s.beginStep c info) : RunningStep s (s.beginStep.raise c info)
  | unwrittenRead {i : Instr} (h : UnwrittenReason i s.beginStep) : RunningStep s s.beginStep.endUnwrittenRead

/-- A step of a core that takes steps ends in a next state, in one of the ways of `RunningStep`. -/
theorem step_of_takesSteps (hs : s.TakesSteps) : ∃ t, step s = .next t ∧ RunningStep s t := by
  rcases step_cases s with ⟨hn, -⟩ | ⟨i, rest, -, hpc, -, hd, e⟩ | ⟨c, info, -, e, hf⟩
  · exact absurd hs hn
  · have fits := encode_fits_of_decode hpc hd
    rcases exec_cases i s.beginStep with ⟨t, e', h⟩ | ⟨c, info, e', h⟩ | ⟨e', h⟩
    · exact ⟨t, e.trans e', .effect fits h⟩
    · exact ⟨_, e.trans e', .execFault fits h⟩
    · exact ⟨_, e.trans e', .unwrittenRead h⟩
  · exact ⟨_, e, .fetchFault hf⟩

theorem runningStep_of_step (hs : s.TakesSteps) (h : step s = .next t) : RunningStep s t := by
  obtain ⟨t', e, ht⟩ := step_of_takesSteps hs
  obtain rfl : t' = t := Host.Outcome.next.inj (e.symm.trans h)
  exact ht

/-- A stopped core's step holds it (log entry 2). -/
theorem eq_beginStep_of_stopped (hs : ¬ s.TakesSteps) (h : step s = .next t) : t = s.beginStep :=
  Host.Outcome.next.inj (h.symm.trans (step_stopped hs))

theorem RunningStep.params_eq (h : RunningStep s t) : t.params = s.params := by
  cases h with
  | effect _ h => exact h.params_eq
  | fetchFault _ => rfl
  | execFault _ _ => rfl
  | unwrittenRead _ => rfl

/-- A step that ends in UnwrittenRead sets the mark and changes nothing else (10_state.md R28). -/
theorem RunningStep.eq_of_unwrittenRead (h : RunningStep s t) (hs : s.TakesSteps) (ht : t.unwrittenRead = true) :
    t = s.beginStep.endUnwrittenRead := by
  have hmark : s.beginStep.unwrittenRead ≠ true := by simp [hs.2]
  cases h with
  | effect _ h => exact absurd (h.unwrittenRead_eq.symm.trans ht) hmark
  | fetchFault _ => exact absurd ht hmark
  | execFault _ _ => exact absurd ht hmark
  | unwrittenRead _ => rfl

/-- `State.raise` is fault entry (60_exceptions.md R97). -/
theorem entersFault_raise (s : State) (c : FaultCause) (info : Word9) :
    EntersFault s (.next (s.raise c info)) c info :=
  ⟨_, rfl, rfl, rfl, rfl, rfl, fun _ => ⟨rfl, rfl⟩, fun _ => rfl, rfl, rfl, rfl, rfl, rfl, rfl, rfl, rfl⟩

/-- A step that ends Faulted is fault entry, with the cause and the info that the latch holds (60_exceptions.md R97). -/
theorem RunningStep.entersFault (h : RunningStep s t) (hs : s.TakesSteps) (ht : t.run = .faulted) :
    EntersFault s.beginStep (.next t) t.faultCause t.faultInfo := by
  cases h with
  | effect _ h => exact absurd ht (h.run_ne_faulted hs.1)
  | fetchFault _ => exact entersFault_raise _ _ _
  | execFault _ _ => exact entersFault_raise _ _ _
  | unwrittenRead _ => exact absurd (hs.1.symm.trans ht) (by decide)

/-- Every step answers a next state. -/
theorem exists_step_eq_next (s : State) : ∃ t, step s = .next t := by
  by_cases hs : s.TakesSteps
  · obtain ⟨t, e, -⟩ := step_of_takesSteps hs
    exact ⟨t, e⟩
  · exact ⟨_, step_stopped hs⟩

/-! ### Runs -/

theorem runSteps_succ_of_step (k : Nat) (h : step s = .next t) : runSteps (k + 1) s = runSteps k t := by
  rw [runSteps_succ, h]

/-- A run of any number of steps answers a next state. -/
theorem exists_runSteps_eq_next (k : Nat) (s : State) : ∃ t, runSteps k s = .next t := by
  induction k generalizing s with
  | zero => exact ⟨s, rfl⟩
  | succ k ih =>
    obtain ⟨t, ht⟩ := exists_step_eq_next s
    rw [runSteps_succ_of_step k ht]
    exact ih t

/-- A property that every step keeps holds after any run. -/
theorem runSteps_induction {P : State → Prop} (keep : ∀ s t, P s → step s = .next t → P t) {k : Nat}
    (hs : P s) (h : runSteps k s = .next t) : P t := by
  induction k generalizing s with
  | zero => cases h; exact hs
  | succ k ih =>
    obtain ⟨u, hu⟩ := exists_step_eq_next s
    rw [runSteps_succ_of_step k hu] at h
    exact ih (keep s u hs hu) h

/-- A run of `j + k` steps is a run of `j` steps and then one of `k`. -/
theorem runSteps_add {j : Nat} (k : Nat) (h : runSteps j s = .next t) : runSteps (j + k) s = runSteps k t := by
  induction j generalizing s with
  | zero => cases h; rw [Nat.zero_add]
  | succ j ih =>
    obtain ⟨u, hu⟩ := exists_step_eq_next s
    rw [runSteps_succ_of_step j hu] at h
    rw [Nat.add_right_comm, runSteps_succ_of_step _ hu, ih h]

/-- A state that its own step answers is held by a run of any length. -/
theorem runSteps_of_step_self (h : step s = .next s) (k : Nat) : runSteps k s = .next s := by
  induction k with
  | zero => rfl
  | succ k ih => rw [runSteps_succ_of_step k h, ih]

end Machine

end Sys2Proof
end

section
/-! The invariant of CA8 CORE under each update of the state, and so under every step (spec 00_scope.md R9,
10_state.md R14-R18, 60_exceptions.md R89-R97). -/

namespace Sys2Proof.Machine

variable {i : Instr} {s t : State} {c : FaultCause} {info : Word9}

/-! ### The invariant under each update -/

namespace State.Inv

/-- Between reset edges the clause on the reset state asks nothing. -/
theorem heldInReset_of_not_rstSeen (notReset : s.rstSeen = false) {P : Prop} : s.rstSeen = true → P :=
  fun h => nomatch notReset.symm.trans h

/-- A Running core has an empty latch (10_state.md R18). -/
theorem faultCause_eq_none (h : s.Inv) (hrun : s.run = .running) : s.faultCause = .none :=
  h.latchIffFaulted.mpr (by simp [hrun])

theorem beginStep (h : s.Inv) : s.beginStep.Inv :=
  { h with
    stoppedPort := fun _ => rfl
    portIsLast := fun _ e => nomatch e
    heldInReset := heldInReset_of_not_rstSeen rfl }

theorem writeReg (h : s.Inv) (notReset : s.rstSeen = false) (r : Reg) (v : Byte) : (s.writeReg r v).Inv :=
  { h with
    allHeld := fun hp => by
      obtain ⟨regs, fl, mark⟩ := h.allHeld hp
      exact ⟨fun q => by simp [State.writeReg_holds, regs q], fl, mark⟩
    heldInReset := heldInReset_of_not_rstSeen notReset }

theorem setFl (h : s.Inv) (notReset : s.rstSeen = false) {v : BitVec 3}
    (legal : v = 0b000 ∨ v = 0b100 ∨ v = 0b010 ∨ v = 0b001) : (s.setFl v).Inv :=
  { h with
    flLegal := fun _ => legal
    allHeld := fun hp => by
      obtain ⟨regs, -, mark⟩ := h.allHeld hp
      exact ⟨regs, rfl, mark⟩
    heldInReset := heldInReset_of_not_rstSeen notReset }

theorem setPc (h : s.Inv) (notReset : s.rstSeen = false) (v : Byte) : (s.setPc v).Inv :=
  { h with
    pcRange := by have := v.isLt; rw [State.setPc_pc, zext9_toNat]; omega
    heldInReset := heldInReset_of_not_rstSeen notReset }

theorem advance (h : s.Inv) (notReset : s.rstSeen = false) {n : Nat} (fits : s.pc.toNat + (1 + n) ≤ 256) :
    (s.advance n).Inv :=
  { h with
    pcRange := by rw [State.advance_pc, BitVec.toNat_ofNat]; omega
    heldInReset := heldInReset_of_not_rstSeen notReset }

theorem writeMem (h : s.Inv) (notReset : s.rstSeen = false) (a v : Byte) : (s.writeMem a v).Inv :=
  { h with
    memWf := Memory.wf_write h.memWf a.isLt v
    heldInReset := heldInReset_of_not_rstSeen notReset }

theorem push (h : s.Inv) (notReset : s.rstSeen = false) (v : Byte) : (s.push v).Inv :=
  (h.writeReg notReset _ _).writeMem notReset _ v

theorem emit (h : s.Inv) (notReset : s.rstSeen = false) (running : s.TakesSteps) (v : Byte) : (s.emit v).Inv :=
  { h with
    stoppedPort := fun stopped => absurd running stopped
    portIsLast := fun w e => by rwa [State.emit_out, List.getLast?_concat]
    heldInReset := heldInReset_of_not_rstSeen notReset }

theorem halt (h : s.Inv) (notReset : s.rstSeen = false) (running : s.TakesSteps) (port : s.outPort = none) :
    s.halt.Inv :=
  { h with
    latchIffFaulted := iff_of_true (h.faultCause_eq_none running.1) fun e => nomatch e
    endsOnce := fun e => nomatch running.2.symm.trans e
    stoppedPort := fun _ => port
    heldInReset := heldInReset_of_not_rstSeen notReset }

theorem raise (h : s.Inv) (notReset : s.rstSeen = false) (running : s.TakesSteps) (port : s.outPort = none)
    (legal : LatchLegal c info) (cause : c ≠ .none) : (s.raise c info).Inv :=
  { h with
    latchLegal := legal
    latchIffFaulted := iff_of_false cause fun e => e rfl
    endsOnce := fun e => nomatch running.2.symm.trans e
    stoppedPort := fun _ => port
    heldInReset := heldInReset_of_not_rstSeen notReset }

theorem endUnwrittenRead (h : s.Inv) (notReset : s.rstSeen = false) (running : s.TakesSteps) (port : s.outPort = none)
    (undefined : s.params.resetRegsDefined ≠ true) : s.endUnwrittenRead.Inv :=
  { h with
    endsOnce := fun _ => running.1
    stoppedPort := fun _ => port
    allHeld := fun hp => absurd hp undefined
    heldInReset := heldInReset_of_not_rstSeen notReset }

end State.Inv

/-! ### The invariant under a step -/

/-- What the fetch records in the latch is legal for its cause (60_exceptions.md R90, R92). -/
theorem FetchReason.latchLegal (h : FetchReason s c info) (hpc : s.pc.toNat ≤ 256) :
    LatchLegal c info ∧ c ≠ .none := by
  refine ⟨?_, by cases h <;> decide⟩
  cases h with
  | past h => exact BitVec.eq_of_toNat_eq (show s.pc.toNat = 256 by omega)
  | overfetch _ _ _ => rfl
  | illegalOpcode _ _ hr =>
    have hop := (s.mem.read s.pc.toNat).isLt
    simp only [LatchLegal, zext9_toNat, BitVec.ofNat_toNat, BitVec.setWidth_eq]
    exact ⟨by omega, hr⟩
  | operand _ _ _ => rfl

/-- What an instruction that lies in memory records in the latch is legal for its cause (60_exceptions.md R91-R94). -/
theorem FaultReason.latchLegal (h : FaultReason i s c info) (fits : s.pc.toNat + (encode i).length ≤ 256) :
    LatchLegal c info ∧ c ≠ .none := by
  refine ⟨?_, by cases h <;> decide⟩
  cases h with
  | illegalRegister _ _ b hb _ =>
    have := b.isLt
    simp only [LatchLegal, zext9_toNat]
    omega
  | returnAddress _ _ _ _ hpc =>
    simp only [encode, List.length_cons, List.length_nil] at fits
    rw [show s.pc.toNat + 2 = 256 by omega]
    rfl
  | pushAtZero _ _ _ _ _ => rfl
  | callAtZero _ _ _ _ _ _ => rfl
  | popAtTop _ _ _ _ _ _ => rfl
  | popSpAtTop _ _ _ _ => rfl
  | retAtTop _ _ => rfl

/-- CMP's flags are legal (43_alu.md R74). -/
theorem aluCmp_legal (u v : Byte) :
    aluCmp u v = 0b000 ∨ aluCmp u v = 0b100 ∨ aluCmp u v = 0b010 ∨ aluCmp u v = 0b001 := by
  rcases aluCmp_cases u v with ⟨-, e⟩ | ⟨-, e⟩ | ⟨-, e⟩ <;> simp [e]

/-- The effect of an instruction that lies in memory keeps the invariant of a core in the middle of a step. -/
theorem Effect.keeps_inv (h : Effect i s t) (inv : s.Inv) (running : s.TakesSteps) (port : s.outPort = none)
    (notReset : s.rstSeen = false) (fits : s.pc.toNat + (encode i).length ≤ 256) : t.Inv := by
  cases h with
  | hlt => exact (inv.halt notReset running port).advance notReset fits
  | ldi s _ _ r => exact (inv.writeReg notReset r _).advance notReset fits
  | prn s _ r => exact (inv.emit notReset running _).advance notReset fits
  | mul s _ _ ra => exact (inv.writeReg notReset ra _).advance notReset fits
  | add s _ _ ra => exact (inv.writeReg notReset ra _).advance notReset fits
  | cmp => exact (inv.setFl notReset (aluCmp_legal _ _)).advance notReset fits
  | push => exact (inv.push notReset _).advance notReset fits
  | popSp => exact ((inv.writeReg notReset _ _).writeReg notReset _ _).advance notReset fits
  | pop => exact ((inv.writeReg notReset _ _).writeReg notReset _ _).advance notReset fits
  | call => exact (inv.push notReset _).setPc notReset _
  | ret => exact (inv.writeReg notReset _ _).setPc notReset _
  | jeqTaken => exact inv.setPc notReset _
  | jeqNotTaken => exact inv.advance notReset fits
  | jneTaken => exact inv.setPc notReset _
  | jneNotTaken => exact inv.advance notReset fits
  | jmp => exact inv.setPc notReset _

/-! ### Reads of what holds no value -/

/-- Every register whose number is listed holds a value. -/
def AllHeld (s : State) (ns : List Nat) : Prop := ∀ q : Reg, q.val ∈ ns → s.holds q = true

theorem allHeld_nil (s : State) : AllHeld s [] := fun _ h => nomatch h

theorem allHeld_cons {n : Nat} {ns : List Nat} {r : Reg} (hn : n = r.val) (hr : s.holds r = true)
    (hns : AllHeld s ns) : AllHeld s (n :: ns) := by
  intro q hq
  rcases List.mem_cons.mp hq with e | e
  · rwa [Fin.ext (e.trans hn)]
  · exact hns q e

/-- An instruction that completes reads only registers that hold a value (10_state.md R12, R28). -/
theorem Effect.readRegs_held (h : Effect i s t) : AllHeld s (readRegs s i) := by
  cases h with
  | hlt => exact allHeld_nil s
  | ldi => exact allHeld_nil s
  | prn s a r ha hr => exact allHeld_cons ha hr (allHeld_nil s)
  | mul s a b ra rb ha hb ua ub => exact allHeld_cons ha ua (allHeld_cons hb ub (allHeld_nil s))
  | add s a b ra rb ha hb ua ub => exact allHeld_cons ha ua (allHeld_cons hb ub (allHeld_nil s))
  | cmp s a b ra rb ha hb ua ub => exact allHeld_cons ha ua (allHeld_cons hb ub (allHeld_nil s))
  | push s a r ha _ hr => exact allHeld_cons ha hr (allHeld_cons rfl s.holds_sp (allHeld_nil s))
  | popSp => exact allHeld_cons rfl s.holds_sp (allHeld_nil s)
  | pop => exact allHeld_cons rfl s.holds_sp (allHeld_nil s)
  | call s a r ha _ _ hr => exact allHeld_cons ha hr (allHeld_cons rfl s.holds_sp (allHeld_nil s))
  | ret => exact allHeld_cons rfl s.holds_sp (allHeld_nil s)
  | jeqTaken s a r ha _ he hr => rw [readRegs, if_pos he]; exact allHeld_cons ha hr (allHeld_nil s)
  | jeqNotTaken s a r ha _ he => rw [readRegs, if_neg (by simp [he])]; exact allHeld_nil s
  | jneTaken s a r ha _ he hr => rw [readRegs, if_neg (by simp [he])]; exact allHeld_cons ha hr (allHeld_nil s)
  | jneNotTaken s a r ha _ he => rw [readRegs, if_pos he]; exact allHeld_nil s
  | jmp s a r ha hr => exact allHeld_cons ha hr (allHeld_nil s)

/-- An instruction that reads FL and completes finds a value there (10_state.md R16, R28). -/
theorem Effect.fl_held (h : Effect i s t) (hi : readsFl i = true) : s.flUnwritten = false := by
  cases h with
  | jeqTaken | jeqNotTaken | jneTaken | jneNotTaken => assumption
  | _ => cases hi

theorem Effect.not_readsUnwritten (h : Effect i s t) : ¬ ReadsUnwritten i s := by
  rintro (⟨r, hr, hu⟩ | ⟨hi, hu⟩)
  · exact nomatch hu.symm.trans (h.readRegs_held r hr)
  · exact nomatch hu.symm.trans (h.fl_held hi)

/-- One unwritten register among the two operands is a read of an unwritten register. -/
theorem readsUnwritten_of_two {a b : Byte} {ra rb : Reg} (ha : a.toNat = ra.val) (hb : b.toNat = rb.val)
    (hi : readRegs s i = [a.toNat, b.toNat]) (hu : s.holds ra = false ∨ s.holds rb = false) :
    ReadsUnwritten i s := by
  rcases hu with hu | hu
  · exact .inl ⟨ra, by simp [hi, ha], hu⟩
  · exact .inl ⟨rb, by simp [hi, hb], hu⟩

/-- An instruction that ends in UnwrittenRead reads something that holds no value (10_state.md R28). -/
theorem UnwrittenReason.readsUnwritten (h : UnwrittenReason i s) : ReadsUnwritten i s := by
  cases h with
  | prn s a r ha hr => exact .inl ⟨r, by simp [readRegs, ha], hr⟩
  | mul s a b ra rb ha hb hu => exact readsUnwritten_of_two ha hb rfl hu
  | add s a b ra rb ha hb hu => exact readsUnwritten_of_two ha hb rfl hu
  | cmp s a b ra rb ha hb hu => exact readsUnwritten_of_two ha hb rfl hu
  | push s a r ha _ hr => exact .inl ⟨r, by simp [readRegs, ha], hr⟩
  | call s a r ha _ _ hr => exact .inl ⟨r, by simp [readRegs, ha], hr⟩
  | jeqFlags s _ _ _ hf => exact .inr ⟨rfl, hf⟩
  | jeqTarget s a r ha _ he hr => exact .inl ⟨r, by simp [readRegs, ha, he], hr⟩
  | jneFlags s _ _ _ hf => exact .inr ⟨rfl, hf⟩
  | jneTarget s a r ha _ he hr => exact .inl ⟨r, by simp [readRegs, ha, he], hr⟩
  | jmp s a r ha hr => exact .inl ⟨r, by simp [readRegs, ha], hr⟩

/-- With RESET_REGS_DEFINED nothing that holds no value is there to read (10_state.md R28, D8, D9). -/
theorem State.Inv.not_readsUnwritten (h : s.Inv) (hp : s.params.resetRegsDefined = true) : ¬ ReadsUnwritten i s := by
  obtain ⟨regs, fl, -⟩ := h.allHeld hp
  rintro (⟨r, -, hu⟩ | ⟨-, hu⟩)
  · exact nomatch hu.symm.trans (regs r)
  · exact nomatch hu.symm.trans fl

/-- Every step of a core that takes steps keeps the invariant. -/
theorem RunningStep.keeps_inv (h : RunningStep s t) (inv : s.Inv) (running : s.TakesSteps) : t.Inv := by
  have begun := inv.beginStep
  cases h with
  | effect fits h => exact h.keeps_inv begun running rfl rfl fits
  | fetchFault h =>
    obtain ⟨legal, cause⟩ := h.latchLegal begun.pcRange
    exact begun.raise rfl running rfl legal cause
  | execFault fits h =>
    obtain ⟨legal, cause⟩ := h.latchLegal fits
    exact begun.raise rfl running rfl legal cause
  | unwrittenRead h =>
    exact begun.endUnwrittenRead rfl running rfl fun hp => begun.not_readsUnwritten hp h.readsUnwritten

theorem step_keeps_inv (inv : s.Inv) (h : step s = .next t) : t.Inv := by
  by_cases hs : s.TakesSteps
  · exact (runningStep_of_step hs h).keeps_inv inv hs
  · rw [eq_beginStep_of_stopped hs h]
    exact inv.beginStep

/-! ### Stopped states -/

/-- A stopped core of the invariant is not in reset, and the pulse of an earlier step is over (10_state.md R21). -/
theorem State.Inv.beginStep_eq_of_stopped (inv : s.Inv) (hs : ¬ s.TakesSteps) : s.beginStep = s := by
  have port := inv.stoppedPort hs
  have notReset : s.rstSeen = false := by
    by_contra hr
    have held := inv.heldInReset (by simpa using hr)
    exact hs ⟨congrArg State.run held, congrArg State.unwrittenRead held⟩
  rw [State.beginStep, ← port, ← notReset]

/-- A stopped core of the invariant is held by a run of any length (70_reset_and_hazards.md R112). -/
theorem State.Inv.runSteps_of_stopped (inv : s.Inv) (hs : ¬ s.TakesSteps) (k : Nat) : runSteps k s = .next s := by
  refine runSteps_of_step_self ?_ k
  rw [step_stopped hs, inv.beginStep_eq_of_stopped hs]

/-! ### The outcome of a step -/

theorem outcomeOf_eq_unwrittenRead : outcomeOf t = .unwrittenRead ↔ t.unwrittenRead = true := by
  unfold outcomeOf
  cases t.unwrittenRead <;> cases t.run <;> decide

theorem outcomeOf_eq_nextState : outcomeOf t = .nextState ↔ t.TakesSteps := by
  unfold outcomeOf State.TakesSteps
  cases t.unwrittenRead <;> cases t.run <;> decide

/-- An UnwrittenRead leaves the core Running, so it hides neither a halt nor a fault. -/
theorem State.Inv.outcomeOf_iff_run (inv : t.Inv) :
    (outcomeOf t = .halted ↔ t.run = .halted) ∧ (outcomeOf t = .faulted ↔ t.run = .faulted) := by
  have once := inv.endsOnce
  unfold outcomeOf
  cases hm : t.unwrittenRead with
  | true => simp [once hm]
  | false => cases t.run <;> decide

/-- An UnwrittenRead is possible only without RESET_REGS_DEFINED (10_state.md R28). -/
theorem State.Inv.resetRegsDefined_of_unwrittenRead (inv : t.Inv) (ht : t.unwrittenRead = true) :
    t.params.resetRegsDefined = false := by
  by_contra hp
  obtain ⟨-, -, mark⟩ := inv.allHeld (by simpa using hp)
  exact nomatch ht.symm.trans mark

end Sys2Proof.Machine
end

section
/-! The obligations on steps, their outcomes and the end of a run (spec 00_scope.md R9). -/

namespace Sys2Proof.Machine

/-- Settles O35: each state update keeps the invariant, hence each way a step can end does. -/
theorem stepKeepsInvariant : Obligations.StepKeepsInvariant := fun _ _ inv h => step_keeps_inv inv h

/-- Settles O33: every way a step can end leaves the parameters, and a reset edge takes them over. -/
theorem parametersNeverChange : Obligations.ParametersNeverChange := by
  refine ⟨fun s t h => ?_, fun _ _ => rfl⟩
  by_cases hs : s.TakesSteps
  · exact (runningStep_of_step hs h).params_eq
  · rw [eq_beginStep_of_stopped hs h, State.beginStep_params]

/-- Settles O37, by the cases of a step and by induction on the number of steps. -/
theorem everyStepAnswersNext : Obligations.EveryStepAnswersNext :=
  ⟨exists_step_eq_next, exists_runSteps_eq_next⟩

/-- Settles O38: the step keeps the parameters and the invariant, whose `allHeld` rules an UnwrittenRead out. -/
theorem definedRegistersNeverEndTheRun : Obligations.DefinedRegistersNeverEndTheRun := by
  intro s t inv hp _ h
  have hp' : t.params.resetRegsDefined = true := by rwa [parametersNeverChange.1 s t h]
  obtain ⟨-, -, mark⟩ := (step_keeps_inv inv h).allHeld hp'
  refine ⟨mark, ?_⟩
  cases hrun : t.run with
  | running => exact .inl ⟨hrun, mark⟩
  | halted => exact .inr (.inl rfl)
  | faulted => exact .inr (.inr rfl)

/-- Settles O39: the outcome is read off the state the step answers, which meets the invariant. -/
theorem stepEndsInOneOutcome : Obligations.StepEndsInOneOutcome := by
  intro s t inv hs h
  have ended := runningStep_of_step hs h
  have inv' := step_keeps_inv inv h
  obtain ⟨halted, faulted⟩ := inv'.outcomeOf_iff_run
  refine ⟨fun ho => ?_, halted, faulted, fun ho => ?_, outcomeOf_eq_nextState⟩
  · have mark := outcomeOf_eq_unwrittenRead.mp ho
    exact ⟨ended.eq_of_unwrittenRead hs mark, inv'.resetRegsDefined_of_unwrittenRead mark⟩
  · rw [h]
    exact ended.entersFault hs (faulted.mp ho)

/-- Settles O40, by the three ways an execution can end. -/
theorem unwrittenReadsEndTheStep : Obligations.UnwrittenReadsEndTheStep := by
  intro i s t hs h
  have unmarked : s.unwrittenRead ≠ true := by simp [hs.2]
  rcases exec_cases i s with ⟨t', e, he⟩ | ⟨c, info, e, -⟩ | ⟨e, hu⟩ <;> cases h.symm.trans e
  · have unmarked' : t.unwrittenRead ≠ true := he.unwrittenRead_eq ▸ unmarked
    exact ⟨iff_of_false unmarked' fun hr => he.not_readsUnwritten hr.2, fun ht => absurd ht unmarked'⟩
  · exact ⟨iff_of_false unmarked fun hr => hr.1 rfl, fun ht => absurd ht unmarked⟩
  · have running : s.endUnwrittenRead.run ≠ .faulted := by simp [hs.1]
    exact ⟨iff_of_true rfl ⟨running, hu.readsUnwritten⟩, fun _ => rfl⟩

/-- Settles O41: each of the forms has a reason to end in UnwrittenRead. -/
theorem unwrittenOperandsEndTheStep : Obligations.UnwrittenOperandsEndTheStep := by
  intro a b ra rb s ha hb
  refine ⟨fun hr => ⟨?prn, ?jmp, fun hs => ?push, fun hs hpc => ?call⟩, fun hu => ⟨?mul, ?add, ?cmp⟩,
    fun hf => ⟨?jeqFlags, ?jneFlags⟩, fun hf hr => ⟨fun he => ?jeqTarget, fun he => ?jneTarget⟩⟩
  case prn => exact exec_of_unwritten (.prn s a ra ha hr)
  case jmp => exact exec_of_unwritten (.jmp s a ra ha hr)
  case push => exact exec_of_unwritten (.push s a ra ha hs hr)
  case call => exact exec_of_unwritten (.call s a ra ha (by omega) hs hr)
  case mul => exact exec_of_unwritten (.mul s a b ra rb ha hb hu)
  case add => exact exec_of_unwritten (.add s a b ra rb ha hb hu)
  case cmp => exact exec_of_unwritten (.cmp s a b ra rb ha hb hu)
  case jeqFlags => exact exec_of_unwritten (.jeqFlags s a ra ha hf)
  case jneFlags => exact exec_of_unwritten (.jneFlags s a ra ha hf)
  case jeqTarget => exact exec_of_unwritten (.jeqTarget s a ra ha hf he hr)
  case jneTarget => exact exec_of_unwritten (.jneTarget s a ra ha hf he hr)

/-- Settles O42: the step answers the state before with the mark, which is a stopped state of the invariant. -/
theorem unwrittenReadEndsTheRun : Obligations.UnwrittenReadEndsTheRun := by
  intro s t inv hs h mark
  have stopped : ¬ t.TakesSteps := fun ht => nomatch mark.symm.trans ht.2
  have inv' := step_keeps_inv inv h
  have running := inv'.endsOnce mark
  refine ⟨?_, running, inv'.faultCause_eq_none running, inv'.runSteps_of_stopped stopped, ⟨1, ?_, stopped⟩,
    fun _ => ⟨rfl, rfl⟩⟩
  · rw [State.outValidPin, inv'.stoppedPort stopped, Option.isSome_none]
  · rw [runSteps_succ_of_step 0 h, runSteps]

/-- A stopped state that a run reaches is what any longer run answers. -/
theorem eq_of_longer_run {s t t' : State} {j k : Nat} (inv : s.Inv) (hjk : j ≤ k) (ht : runSteps j s = .next t)
    (stopped : ¬ t.TakesSteps) (ht' : runSteps k s = .next t') : t = t' := by
  have inv' : t.Inv := runSteps_induction (fun _ _ => step_keeps_inv) inv ht
  have held := inv'.runSteps_of_stopped stopped (k - j)
  rw [← runSteps_add (k - j) ht, Nat.add_sub_cancel' hjk, ht'] at held
  exact (Host.Outcome.next.inj held).symm

/-- Settles O56: the shorter of the two runs ends in a state that the longer one is held in. -/
theorem runEndIsUnique : Obligations.RunEndIsUnique := by
  rintro s t t' inv ⟨j, ht, stopped⟩ ⟨k, ht', stopped'⟩
  rcases Nat.le_total j k with hjk | hkj
  · exact eq_of_longer_run inv hjk ht stopped ht'
  · exact (eq_of_longer_run inv hkj ht' stopped' ht).symm

end Sys2Proof.Machine
end

section
/-! What executing an instruction leaves unchanged and what it gives a value, read off its effect (spec 10_state.md
R12-R18, R24, R27, R28). -/

namespace Sys2Proof.Machine

variable {i : Instr} {s t : State}

/-- The three ways an execution that answers `t` can end, `exec_cases` read from the answer. -/
theorem effect_or_stop_of_exec (h : exec i s = .next t) :
    Effect i s t ∨ (∃ c info, t = s.raise c info ∧ FaultReason i s c info) ∨
      (t = s.endUnwrittenRead ∧ UnwrittenReason i s) := by
  rcases exec_cases i s with ⟨t', e, he⟩ | ⟨c, info, e, hf⟩ | ⟨e, hu⟩ <;> cases h.symm.trans e
  · exact .inl he
  · exact .inr (.inl ⟨c, info, rfl, hf⟩)
  · exact .inr (.inr ⟨rfl, hu⟩)

/-- An execution that neither faults nor ends in UnwrittenRead has completed with its effect. -/
theorem effect_of_exec (h : exec i s = .next t) (hrun : t.run ≠ .faulted) (hmark : t.unwrittenRead = false) :
    Effect i s t := by
  rcases effect_or_stop_of_exec h with he | ⟨c, info, rfl, -⟩ | ⟨rfl, -⟩
  · exact he
  · exact absurd rfl hrun
  · exact nomatch hmark

/-! ### FL, the output and the run state -/

/-- No effect but CMP's writes FL (10_state.md R16). -/
theorem Effect.fl_eq (h : Effect i s t) (hi : ∀ a b, i ≠ .cmp a b) :
    t.fl = s.fl ∧ t.flUnwritten = s.flUnwritten := by
  cases h with
  | cmp s a b => exact absurd rfl (hi a b)
  | _ => exact ⟨rfl, rfl⟩

/-- CMP gives FL a value (10_state.md R28). -/
theorem Effect.fl_held_of_cmp {a b : Byte} (h : Effect (.cmp a b) s t) : t.flUnwritten = false := by
  cases h
  rfl

/-- PRN appends one byte and presents it on the port, and the core goes on; no other effect touches the stream or the
port (10_state.md R24, R27, 42_data_output.md R69, R70). -/
theorem Effect.output_cases (h : Effect i s t) :
    ((∀ a, i ≠ .prn a) ∧ t.out = s.out ∧ t.outPort = s.outPort) ∨
      ∃ a v, i = .prn a ∧ t.out = s.out ++ [v] ∧ t.outPort = some v ∧ t.run = s.run := by
  cases h with
  | prn s a r => exact .inr ⟨a, s.reg r, rfl, rfl, rfl, rfl⟩
  | _ => exact .inl ⟨fun _ e => (nomatch e), rfl, rfl⟩

/-- In a Running core HLT's effect halts, and no other effect does (10_state.md R17). -/
theorem Effect.halted_iff (h : Effect i s t) (hs : s.run = .running) : t.run = .halted ↔ i = .hlt := by
  cases h with
  | hlt => exact iff_of_true rfl rfl
  | _ => exact iff_of_false (fun e => nomatch hs.symm.trans e) (fun e => nomatch e)

/-- No effect writes the fault latch (10_state.md R18). -/
theorem Effect.latch_eq (h : Effect i s t) : t.faultCause = s.faultCause ∧ t.faultInfo = s.faultInfo := by
  cases h <;> exact ⟨rfl, rfl⟩

/-- HLT has no reason to fault. -/
theorem FaultReason.ne_hlt {c : FaultCause} {info : Word9} (h : FaultReason i s c info) : i ≠ .hlt := by
  rintro rfl
  cases h with
  | illegalRegister _ _ _ _ hf => cases hf

/-- HLT reads nothing that could hold no value. -/
theorem UnwrittenReason.ne_hlt (h : UnwrittenReason i s) : i ≠ .hlt := by
  rintro rfl
  cases h

/-! ### Registers -/

/-- `x[r]` has the same value in both states, and holds one in both or in neither. -/
def SameRegister (r : Reg) (s t : State) : Prop := t.reg r = s.reg r ∧ t.holds r = s.holds r

theorem SameRegister.writeReg {r q : Reg} (h : SameRegister q s t) (hq : q ≠ r) (v : Byte) :
    SameRegister q s (t.writeReg r v) := by
  obtain ⟨hreg, hholds⟩ := h
  exact ⟨(t.writeReg_reg_ne v hq).trans hreg, (t.writeReg_holds_ne v hq).trans hholds⟩

/-- An effect leaves every register that its rule does not write (10_state.md R12). -/
theorem Effect.sameRegister (h : Effect i s t) {q : Reg} (hq : q.val ∉ writtenRegs i) : SameRegister q s t := by
  have same : SameRegister q s s := ⟨rfl, rfl⟩
  have ne : ∀ {n : Nat} {r : Reg}, n = r.val → n ∈ writtenRegs i → q ≠ r := by
    rintro n r hn hw rfl
    exact hq (hn ▸ hw)
  cases h with
  | ldi s a imm r ha => exact same.writeReg (ne ha (by simp [writtenRegs])) _
  | mul s a b ra rb ha => exact same.writeReg (ne ha (by simp [writtenRegs])) _
  | add s a b ra rb ha => exact same.writeReg (ne ha (by simp [writtenRegs])) _
  | push => exact same.writeReg (ne rfl (by simp [writtenRegs])) _
  | popSp =>
    have hsp : q ≠ Config.spIndex := ne rfl (by simp [writtenRegs])
    exact (same.writeReg hsp _).writeReg hsp _
  | pop s a r ha =>
    exact (same.writeReg (ne ha (by simp [writtenRegs])) _).writeReg (ne rfl (by simp [writtenRegs])) _
  | call => exact same.writeReg (ne rfl (by simp [writtenRegs])) _
  | ret => exact same.writeReg (ne rfl (by simp [writtenRegs])) _
  | _ => exact same

/-- An effect gives every register that its rule writes a value (10_state.md R28). -/
theorem Effect.writtenRegs_held (h : Effect i s t) : AllHeld t (writtenRegs i) := by
  cases h with
  | ldi s a imm r ha => exact allHeld_cons ha (s.writeReg_holds_same r imm) (allHeld_nil _)
  | mul s a b ra rb ha =>
    exact allHeld_cons ha (s.writeReg_holds_same ra (aluMul (s.reg ra) (s.reg rb))) (allHeld_nil _)
  | add s a b ra rb ha =>
    exact allHeld_cons ha (s.writeReg_holds_same ra (aluAdd (s.reg ra) (s.reg rb))) (allHeld_nil _)
  | push => exact allHeld_cons rfl (State.holds_sp _) (allHeld_nil _)
  | popSp s a ha => exact allHeld_cons ha (State.holds_sp _) (allHeld_cons rfl (State.holds_sp _) (allHeld_nil _))
  | pop s a r ha hr =>
    have held := ((s.writeReg r (s.readMem s.sp)).writeReg_holds_ne (s.sp + 1) hr).trans (s.writeReg_holds_same r _)
    exact allHeld_cons ha held (allHeld_cons rfl (State.holds_sp _) (allHeld_nil _))
  | call => exact allHeld_cons rfl (State.holds_sp _) (allHeld_nil _)
  | ret => exact allHeld_cons rfl (State.holds_sp _) (allHeld_nil _)
  | _ => exact allHeld_nil _

/-! ### The output of a step -/

/-- The step from `s` to `t` was a PRN that completed: the core took and takes steps, and the bytes at the pc decoded to
a PRN (42_data_output.md R69, R70). -/
def PrnCompleted (s t : State) : Prop :=
  s.TakesSteps ∧ t.TakesSteps ∧ ∃ a rest, s.pc.toNat ≤ 255 ∧ OverfetchPasses s ∧
    decode (bytesFromPc s) = .ok (.prn a, rest)

/-- A step presents a byte on the port exactly when it was a PRN that completed, and the stream gains what the port
shows (10_state.md R24, R27). -/
def StepOutput (s t : State) : Prop :=
  (¬ PrnCompleted s t ∧ t.outPort = none ∧ t.out = s.out) ∨
    ∃ v, PrnCompleted s t ∧ t.outPort = some v ∧ t.out = s.out ++ [v]

theorem not_prnCompleted_of_stopped (ht : ¬ t.TakesSteps) : ¬ PrnCompleted s t := fun ⟨_, h, _⟩ => ht h

theorem raise_not_takesSteps (s : State) (c : FaultCause) (info : Word9) : ¬ (s.raise c info).TakesSteps :=
  fun h => nomatch h.1

theorem endUnwrittenRead_not_takesSteps (s : State) : ¬ s.endUnwrittenRead.TakesSteps :=
  fun h => nomatch h.2

/-- Each way a step can end, a held core's among them, has the output of `StepOutput`. -/
theorem stepOutput_of_step (h : step s = .next t) : StepOutput s t := by
  rcases step_cases s with ⟨hn, e⟩ | ⟨i, rest, hs, hpc, ho, hd, e⟩ | ⟨c, info, hs, e, -⟩
  case inl =>
    cases h.symm.trans e
    exact .inl ⟨fun hp => hn hp.1, rfl, rfl⟩
  case inr.inr =>
    cases h.symm.trans e
    exact .inl ⟨not_prnCompleted_of_stopped (raise_not_takesSteps _ c info), rfl, rfl⟩
  case inr.inl =>
    rcases effect_or_stop_of_exec (e.symm.trans h) with he | ⟨c, info, rfl, -⟩ | ⟨rfl, -⟩
    · rcases he.output_cases with ⟨hi, hout, hport⟩ | ⟨a, v, rfl, hout, hport, hrun⟩
      · refine .inl ⟨?_, hport, hout⟩
        rintro ⟨-, -, a, rest', -, -, hd'⟩
        exact hi a (congrArg Prod.fst (Except.ok.inj (hd.symm.trans hd')))
      · have ht : t.TakesSteps := ⟨hrun.trans hs.1, he.unwrittenRead_eq.trans hs.2⟩
        exact .inr ⟨v, ⟨hs, ht, a, rest, hpc, ho, hd⟩, hport, hout⟩
    · exact .inl ⟨not_prnCompleted_of_stopped (raise_not_takesSteps _ c info), rfl, rfl⟩
    · exact .inl ⟨not_prnCompleted_of_stopped (endUnwrittenRead_not_takesSteps _), rfl, rfl⟩

end Sys2Proof.Machine
end

section
/-! The reset state (spec 10_state.md R28), and that the canonical form of memory is unique (10_state.md R20, log entry
13). -/

namespace Sys2Proof.Machine

/-! ### The reset state -/

/-- With RESET_REGS_DEFINED every register holds a value after reset, without it none of R0 to R6 does
(10_state.md R28, D8). -/
theorem State.resetWith_holds_ne (p : Config.Params) (n : Nat) {r : Reg} (hr : r ≠ 7) :
    (State.resetWith p n).holds r = p.resetRegsDefined := by
  have h7 : r.val < 7 := Fin.val_lt_last hr
  simp [State.holds, State.resetWith, h7]

theorem State.resetWith_holds (p : Config.Params) (n : Nat) (hp : p.resetRegsDefined = true) (r : Reg) :
    (State.resetWith p n).holds r = true := by
  by_cases hr : r = Config.spIndex
  · rw [hr, State.holds_sp]
  · rw [State.resetWith_holds_ne p n hr, hp]

theorem resetRegs_sp (p : Config.Params) (n : Nat) : (resetRegs p n)[7] = 0xF4 := by
  unfold resetRegs
  split <;> rfl

theorem State.resetWith_reg_eq_zero (p : Config.Params) (n : Nat) (hp : p.resetRegsDefined = true) {r : Reg}
    (hr : r ≠ 7) : (State.resetWith p n).reg r = 0 := by
  have zeros : ∀ q : Reg, q ≠ 7 → (#v[0, 0, 0, 0, 0, 0, 0, Config.spInit] : Vector Byte 8)[q.val] = 0 := by decide
  simp only [State.reg, State.resetWith, resetRegs, if_pos hp]
  exact zeros r hr

theorem State.resetWith_fl_eq_zero (p : Config.Params) (n : Nat) (hp : p.resetRegsDefined = true) :
    (State.resetWith p n).fl = 0b000 := if_pos hp

/-- The reset state meets the invariant (10_state.md R28). -/
theorem State.resetWith_inv (p : Config.Params) (n : Nat) : (State.resetWith p n).Inv where
  memWf := Memory.wf_nil
  pcRange := Nat.zero_le 256
  flLegal h := .inl (State.resetWith_fl_eq_zero p n (by simpa [State.resetWith] using h))
  latchLegal := rfl
  latchIffFaulted := iff_of_true rfl fun e => nomatch e
  endsOnce h := nomatch h
  stoppedPort _ := rfl
  portIsLast _ h := nomatch h
  allHeld hp := ⟨State.resetWith_holds p n hp, by simpa [State.resetWith] using hp, rfl⟩
  heldInReset h := nomatch h

/-! ### Canonical memories -/

namespace Memory

variable {c d : Host.Cell} {m m' : Memory}

theorem read_head (c : Host.Cell) (m : Memory) : Memory.read (c :: m) c.1 = c.2 := if_pos rfl

/-- The first listed cell of a canonical memory does not read as a cleared one. -/
theorem read_head_ne_zero (h : Memory.wf (c :: m)) : Memory.read (c :: m) c.1 ≠ 0 := by
  rw [read_head]
  exact (h.2 c (List.mem_cons_self ..)).2

/-- Below the first listed address a canonical memory reads as cleared. -/
theorem read_before_head (h : Memory.wf (c :: m)) {a : Nat} (ha : a < c.1) : Memory.read (c :: m) a = 0 := by
  rw [read_cons, if_neg (by omega), read_below h (by omega)]

/-- A canonical memory that reads what another one does lists nothing before the other's first address. -/
theorem head_le_of_read_eq (hc : Memory.wf (c :: m)) (hd : Memory.wf (d :: m'))
    (h : ∀ a, Memory.read (c :: m) a = Memory.read (d :: m') a) : d.1 ≤ c.1 := by
  by_contra hlt
  exact read_head_ne_zero hc ((h c.1).trans (read_before_head hd (by omega)))

/-- The tails of two canonical memories with the same first cell read the same where the memories do. -/
theorem tail_read_eq (hm : Memory.wf (c :: m)) (hm' : Memory.wf (c :: m'))
    (h : ∀ a, Memory.read (c :: m) a = Memory.read (c :: m') a) (a : Nat) : m.read a = m'.read a := by
  rcases Nat.lt_or_ge c.1 a with ha | ha
  · have e := h a
    rwa [read_cons, read_cons, if_neg (by omega), if_neg (by omega)] at e
  · rw [read_below hm ha, read_below hm' ha]

/-- A canonical memory is determined by what it reads as. -/
theorem eq_of_read_eq (hm : m.wf) (hm' : m'.wf) (h : ∀ a, m.read a = m'.read a) : m = m' := by
  induction m generalizing m' with
  | nil =>
    cases m' with
    | nil => rfl
    | cons d m' => exact absurd (h d.1).symm (read_head_ne_zero hm')
  | cons c m ih =>
    cases m' with
    | nil => exact absurd (h c.1) (read_head_ne_zero hm)
    | cons d m' =>
      have haddr : c.1 = d.1 :=
        Nat.le_antisymm (head_le_of_read_eq hm' hm fun a => (h a).symm) (head_le_of_read_eq hm hm' h)
      have hbyte : c.2 = d.2 := by
        have e := h c.1
        rwa [read_head, haddr, read_head] at e
      obtain rfl : c = d := Prod.ext haddr hbyte
      rw [ih (wf_tail hm) (wf_tail hm') (tail_read_eq hm hm' h)]

end Memory

end Sys2Proof.Machine
end

section
/-! The obligations on the state: what instructions write of it, its reset values, its pins and its memory (spec
10_state.md). -/

namespace Sys2Proof.Machine

/-- Settles O27: only CMP's effect writes FL, and neither fault entry nor an UnwrittenRead does. -/
theorem onlyCmpWritesFlags : Obligations.OnlyCmpWritesFlags := by
  intro i s t h hi
  rcases effect_or_stop_of_exec h with he | ⟨c, info, rfl, -⟩ | ⟨rfl, -⟩
  · exact he.fl_eq hi
  · exact ⟨rfl, rfl⟩
  · exact ⟨rfl, rfl⟩

/-- Settles O29: only PRN's effect touches the output, and neither fault entry nor an UnwrittenRead does. -/
theorem onlyPrnEmits : Obligations.OnlyPrnEmits := by
  intro i s t h
  rcases effect_or_stop_of_exec h with he | ⟨c, info, rfl, -⟩ | ⟨rfl, -⟩
  · rcases he.output_cases with ⟨-, hout, hport⟩ | ⟨a, v, rfl, hout, hport, -⟩
    · exact ⟨fun _ => ⟨hout, hport⟩, .inl hout⟩
    · exact ⟨fun hi => absurd rfl (hi a), .inr ⟨v, hout, hport⟩⟩
  · exact ⟨fun _ => ⟨rfl, rfl⟩, .inl rfl⟩
  · exact ⟨fun _ => ⟨rfl, rfl⟩, .inl rfl⟩

/-- Settles O30: an HLT ends with its effect, which halts; no other effect does, and no effect writes the latch. -/
theorem onlyHltHalts : Obligations.OnlyHltHalts := by
  intro i s t hs h
  rcases effect_or_stop_of_exec h with he | ⟨c, info, rfl, hf⟩ | ⟨rfl, hu⟩
  · exact ⟨he.halted_iff hs, fun _ => he.latch_eq⟩
  · exact ⟨iff_of_false (by simp) hf.ne_hlt, fun hrun => absurd rfl hrun⟩
  · exact ⟨iff_of_false (by simp [hs]) hu.ne_hlt, fun _ => ⟨rfl, rfl⟩⟩

/-- Settles O31: each effect writes the registers of its rule, and no other ending writes a register. -/
theorem registersWrittenFollowTheTable : Obligations.RegistersWrittenFollowTheTable := by
  intro i s t r h hr
  rcases effect_or_stop_of_exec h with he | ⟨c, info, rfl, -⟩ | ⟨rfl, -⟩
  · exact he.sameRegister hr
  · exact ⟨rfl, rfl⟩
  · exact ⟨rfl, rfl⟩

/-- Settles O43: the instruction has completed with its effect, which clears the marks of what it writes. -/
theorem writingGivesAValue : Obligations.WritingGivesAValue := by
  intro i s t _ h hrun hmark
  have he := effect_of_exec h hrun hmark
  refine ⟨he.writtenRegs_held, ?_⟩
  rintro a b rfl
  exact he.fl_held_of_cmp

/-- Settles O48, by induction on the two lists: their first cells agree, and so do the reads of their tails. -/
theorem canonicalMemoryIsUnique : Obligations.CanonicalMemoryIsUnique :=
  fun _ _ hm hm' h => Memory.eq_of_read_eq hm hm' h

/-- Settles O52: the port is empty after a step that was no completed PRN, and shows the appended byte after one that
was. -/
theorem outValidPulsesForPrnOnly : Obligations.OutValidPulsesForPrnOnly := by
  intro s t h
  rcases stepOutput_of_step h with ⟨hprn, hport, hout⟩ | ⟨v, hprn, hport, hout⟩
  · have hpin : t.outValidPin = false := by rw [State.outValidPin, hport, Option.isSome_none]
    exact ⟨iff_of_false (by simp [hpin]) hprn, fun hv => (nomatch hpin.symm.trans hv), fun _ => hout⟩
  · have hpin : t.outValidPin = true := by rw [State.outValidPin, hport, Option.isSome_some]
    refine ⟨iff_of_true hpin hprn, fun _ moment => ?_, fun hv => nomatch hpin.symm.trans hv⟩
    rw [State.outDataPin, hport, Option.getD_some, hout]

/-- Settles O34: `State.reset` is the reset state with the default parameters. -/
theorem resetStateMeetsInvariant : Obligations.ResetStateMeetsInvariant :=
  ⟨State.resetWith_inv _ _, State.resetWith_inv⟩

/-- Settles O44: the fields are those of `State.resetWith`, and the registers are `resetRegs`. -/
theorem resetValues : Obligations.ResetValues := fun p n =>
  ⟨resetRegs_sp p n, rfl,
    fun hp => ⟨fun _ hr => State.resetWith_reg_eq_zero p n hp hr, State.resetWith_fl_eq_zero p n hp⟩,
    fun _ hr => State.resetWith_holds_ne p n hr, rfl, rfl, rfl, rfl, rfl, fun _ => rfl, rfl, rfl, rfl, rfl⟩

/-- Settles O53: each run state drives the two pins as its code says. -/
theorem statusPinsShowTheState : Obligations.StatusPinsShowTheState := by
  refine ⟨fun s => ?_, rfl⟩
  unfold State.haltedPin State.faultedPin
  cases s.run with
  | running => exact ⟨by decide, by decide, by decide, rfl, rfl⟩
  | halted => exact ⟨by decide, by decide, by decide, rfl, rfl⟩
  | faulted => exact ⟨by decide, by decide, by decide, rfl, rfl⟩

end Sys2Proof.Machine
end

section
/-! What instructions write of memory, and the obligations on it (spec 20_memory.md R31, R39, 70_reset_and_hazards.md
R114). -/

namespace Sys2Proof.Machine

variable {i : Instr} {s t : State}

/-- PUSH and CALL write the one cell below SP, and no other effect writes memory (20_memory.md R31). -/
theorem Effect.mem_cases (h : Effect i s t) :
    t.mem = s.mem ∨
      (∃ a, i = .push a ∨ i = .call a) ∧ ∃ v, t.mem = s.mem.write (s.sp - 1).toNat v := by
  cases h with
  | push s a => exact .inr ⟨⟨a, .inl rfl⟩, _, rfl⟩
  | call s a => exact .inr ⟨⟨a, .inr rfl⟩, _, rfl⟩
  | _ => exact .inl rfl

/-- The next opcode byte is the byte at the pc (40_execution_cycle.md R56). -/
theorem head?_bytesFromPc (h : s.pc.toNat ≤ 255) : (bytesFromPc s).head? = some (s.mem.read s.pc.toNat) := by
  rw [bytesFromPc_eq h, List.head?_cons]

/-- Settles O28: only the effects of PUSH and CALL write memory, at SP - 1, and neither fault entry nor an UnwrittenRead
does. -/
theorem onlyPushAndCallWriteMemory : Obligations.OnlyPushAndCallWriteMemory := by
  intro i s t h
  rcases effect_or_stop_of_exec h with he | ⟨c, info, rfl, -⟩ | ⟨rfl, -⟩
  · rcases he.mem_cases with hmem | ⟨⟨a, hi⟩, v, hmem⟩
    · exact ⟨fun _ _ => hmem, fun c _ => by rw [hmem]⟩
    · refine ⟨fun hpush hcall => (hi.elim (hpush a) (hcall a)).elim, fun c hc => ?_⟩
      rw [hmem, Memory.read_write_ne _ _ hc]
  · exact ⟨fun _ _ => rfl, fun _ _ => rfl⟩
  · exact ⟨fun _ _ => rfl, fun _ _ => rfl⟩

/-- Settles O54: the cell that the PUSH writes, SP - 1, is the address pc + 2 of the next opcode byte. -/
theorem pushIsSeenByTheNextFetch : Obligations.PushIsSeenByTheNextFetch := by
  intro a r s ha hr hheld hwf hpc hsp
  have hs : s.sp ≠ 0 := by bv_omega
  have hcell : (s.sp - 1).toNat = s.pc.toNat + 2 := by bv_omega
  refine ⟨_, exec_of_effect (.push s a r ha hs hheld), ?_⟩
  rw [if_neg hr]
  have hnext : ((s.push (s.reg r)).advance 1).pc.toNat = s.pc.toNat + 2 :=
    Nat.mod_eq_of_lt (show s.pc.toNat + 2 < 512 by omega)
  have hmem : ((s.push (s.reg r)).advance 1).mem = s.mem.write (s.pc.toNat + 2) (s.reg r) := by
    rw [← hcell]
    rfl
  rw [head?_bytesFromPc (by omega), hnext, hmem, Memory.read_write_same hwf]

end Sys2Proof.Machine
end

section
/-! The decoder and the encoder against each other and against the opcode map, and the obligations on them (spec
30_encoding.md R40-R50). -/

namespace Sys2Proof

/-! ### Encoded bytes decode -/

/-- A valid opcode byte hands the bytes after it to its entry (30_encoding.md R47). -/
theorem decode_cons_of_rom {op : Byte} {e : RomEntry} (h : rom op = some e) (bs : List Byte) :
    decode (op :: bs) = decodeOperands e bs := by
  rw [decode, h]

/-- An encoding decodes to its instruction, whatever bytes follow it (30_encoding.md R50). -/
theorem decode_encode_append (i : Instr) (rest : List Byte) : decode (encode i ++ rest) = .ok (i, rest) := by
  cases i with
  | hlt => exact decode_cons_of_rom rom_hlt _
  | ldi a imm => exact decode_cons_of_rom rom_ldi _
  | prn a => exact decode_cons_of_rom rom_prn _
  | mul a b => exact decode_cons_of_rom rom_mul _
  | add a b => exact decode_cons_of_rom rom_add _
  | push a => exact decode_cons_of_rom rom_push _
  | pop a => exact decode_cons_of_rom rom_pop _
  | call a => exact decode_cons_of_rom rom_call _
  | ret => exact decode_cons_of_rom rom_ret _
  | cmp a b => exact decode_cons_of_rom rom_cmp _
  | jeq a => exact decode_cons_of_rom rom_jeq _
  | jne a => exact decode_cons_of_rom rom_jne _
  | jmp a => exact decode_cons_of_rom rom_jmp _

/-- Settles O1: decoded bytes are an encoding and a rest, and an encoding decodes whatever follows it. -/
theorem decodeInvertsEncode : Obligations.DecodeInvertsEncode := fun _ i rest =>
  ⟨eq_encode_append_of_decode, fun h => h ▸ decode_encode_append i rest⟩

/-- Settles O2: each word is the encoding of its instruction, bit for bit. -/
theorem writtenOutWordsDecode : Obligations.WrittenOutWordsDecode :=
  ⟨decode_encode_append .hlt [], decode_encode_append (.ldi 0 8) [], decode_encode_append (.prn 5) [],
    decode_encode_append (.mul 2 3) [], decode_encode_append (.add 7 1) [], decode_encode_append (.cmp 1 2) [],
    decode_encode_append (.push 6) [], decode_encode_append (.call 1) [], decode_encode_append (.jeq 3) [],
    decode_encode_append (.jne 4) []⟩

/-! ### The opcode map -/

/-- Settles O3: a valid entry is one of the thirteen rows, and the bits of each row's opcode are as claimed. -/
theorem opcodeBitsGiveCountAndSetsPc : Obligations.OpcodeBitsGiveCountAndSetsPc := by
  intro op e h
  have rows : ∀ row ∈ romTable, row.2.count = opAA row.1 ∧ row.2.setsPc = opC row.1 ∧ row.2.count ≤ 2 ∧
      (opB row.1 = true ↔
        row.2.operation = .mul ∨ row.2.operation = .add ∨ row.2.operation = .cmp) := by decide
  exact rows _ (rom_row h)

/-- The valid opcode bytes are those of the table's rows (30_encoding.md R47). -/
theorem rom_isSome_iff (op : Byte) : (rom op).isSome ↔ op ∈ romTable.map Prod.fst := by
  simp [rom, List.find?_isSome]

/-- The valid opcode bytes are the table's thirteen, each once. -/
theorem validOpcodes_perm :
    ((List.range 256).filter fun n => (rom (BitVec.ofNat 8 n)).isSome).Perm
      (romTable.map fun row => row.1.toNat) := by
  have distinct : (romTable.map fun row => row.1.toNat).Nodup := by decide
  refine (List.perm_ext_iff_of_nodup (List.nodup_range.filter _) distinct).mpr fun n => ?_
  rw [List.mem_filter, List.mem_range, rom_isSome_iff, List.mem_map, List.mem_map]
  constructor
  · rintro ⟨hn, row, hrow, e⟩
    exact ⟨row, hrow, by rw [e, BitVec.toNat_ofNat, Nat.mod_eq_of_lt hn]⟩
  · rintro ⟨row, hrow, rfl⟩
    exact ⟨row.1.isLt, row, hrow, by simp⟩

/-- Settles O4: the valid bytes are the table's thirteen, the invalid ones the rest of the 256, and no entry counts three
operand bytes. -/
theorem thirteenOpcodesAreValid : Obligations.ThirteenOpcodesAreValid := by
  have valid := validOpcodes_perm.length_eq
  rw [List.length_map, show romTable.length = 13 from rfl] at valid
  have all := (List.range 256).length_eq_length_filter_add fun n => (rom (BitVec.ofNat 8 n)).isSome
  simp only [valid, List.length_range, Option.not_isSome] at all
  refine ⟨valid, ?_, by decide, fun op h => ?_⟩
  · omega
  · refine Option.eq_none_iff_forall_ne_some.mpr fun e he => ?_
    obtain ⟨hcount, -, hle, -⟩ := opcodeBitsGiveCountAndSetsPc op e he
    omega

end Sys2Proof
end

section
/-! The instruction that lies at the pc is the one that the step runs, and memory outside it has no effect on one that
does not read the stack (spec 30_encoding.md R50, 40_execution_cycle.md R57). -/

namespace Sys2Proof.Machine

variable {i : Instr} {s t : State}

/-! ### The instruction at the pc -/

theorem encode_length_pos (i : Instr) : 0 < (encode i).length := by
  cases i <;> exact Nat.succ_pos _

/-- The instruction lies at the pc exactly when the bytes from there on begin with its encoding. -/
theorem liesAtPc_iff_append : LiesAtPc i s ↔ ∃ rest, bytesFromPc s = encode i ++ rest := by
  have hpos := encode_length_pos i
  have hlen : (bytesFromPc s).length = 256 - s.pc.toNat := by simp [bytesFromPc]
  have hget : ∀ k (hk : k < (bytesFromPc s).length), (bytesFromPc s)[k] = s.mem.read (s.pc.toNat + k) := by
    simp [bytesFromPc]
  constructor
  · rintro ⟨fits, bytes⟩
    have htake : (bytesFromPc s).take (encode i).length = encode i :=
      List.ext_getElem (by rw [List.length_take, hlen]; omega) fun k _ hk => by rw [List.getElem_take, hget, bytes k hk]
    exact ⟨_, htake ▸ (List.take_append_drop (encode i).length (bytesFromPc s)).symm⟩
  · rintro ⟨rest, e⟩
    have hle : (encode i).length ≤ (bytesFromPc s).length := by simp [e]
    refine ⟨by omega, fun k hk => ?_⟩
    rw [← hget k (by omega)]
    simp only [e, List.getElem_append_left hk]

/-- The instruction lies at the pc exactly when the bytes from there on decode to it. -/
theorem liesAtPc_iff_decode : LiesAtPc i s ↔ ∃ rest, decode (bytesFromPc s) = .ok (i, rest) :=
  liesAtPc_iff_append.trans (exists_congr fun rest => (decodeInvertsEncode _ i rest).symm)

/-- The step runs the instruction that lies at the pc (40_execution_cycle.md R61, R64). -/
theorem step_eq_exec_of_liesAtPc (hs : s.TakesSteps) (lies : LiesAtPc i s) (ho : OverfetchPasses s) :
    step s = exec i s.beginStep := by
  obtain ⟨rest, hd⟩ := liesAtPc_iff_decode.mp lies
  have hpc : s.pc.toNat ≤ 255 := by
    have := encode_length_pos i
    have ⟨fits, _⟩ := lies
    omega
  rw [step_running hs, fetch_instr (s := s.beginStep) hpc ho hd]

/-! ### Another memory -/

/-- The state with another memory. -/
def State.withMem (s : State) (m : Memory) : State := { s with mem := m }

/-- The instruction reads the stack's memory: POP and RET (44_stack.md R79, 45_control_transfer.md R83). -/
def ReadsStack (i : Instr) : Prop := i = .ret ∨ ∃ a, i = .pop a

/-- With another memory, an effect that does not read the stack is the same in everything but memory. -/
theorem Effect.withMem (h : Effect i s t) (hi : ¬ ReadsStack i) (m : Memory) :
    ∃ m', Effect i (s.withMem m) (t.withMem m') := by
  cases h with
  | hlt s => exact ⟨m, .hlt _⟩
  | ldi s a imm r ha => exact ⟨m, .ldi _ a imm r ha⟩
  | prn s a r ha hr => exact ⟨m, .prn _ a r ha hr⟩
  | mul s a b ra rb ha hb ua ub => exact ⟨m, .mul _ a b ra rb ha hb ua ub⟩
  | add s a b ra rb ha hb ua ub => exact ⟨m, .add _ a b ra rb ha hb ua ub⟩
  | cmp s a b ra rb ha hb ua ub => exact ⟨m, .cmp _ a b ra rb ha hb ua ub⟩
  | push s a r ha hs hr => exact ⟨_, .push (s.withMem m) a r ha hs hr⟩
  | popSp s a ha hv => exact absurd (.inr ⟨a, rfl⟩) hi
  | pop s a r ha hr hs => exact absurd (.inr ⟨a, rfl⟩) hi
  | call s a r ha hpc hs hr => exact ⟨_, .call (s.withMem m) a r ha hpc hs hr⟩
  | ret s hs => exact absurd (.inl rfl) hi
  | jeqTaken s a r ha hf he hr => exact ⟨m, .jeqTaken _ a r ha hf he hr⟩
  | jeqNotTaken s a r ha hf he => exact ⟨m, .jeqNotTaken _ a r ha hf he⟩
  | jneTaken s a r ha hf he hr => exact ⟨m, .jneTaken _ a r ha hf he hr⟩
  | jneNotTaken s a r ha hf he => exact ⟨m, .jneNotTaken _ a r ha hf he⟩
  | jmp s a r ha hr => exact ⟨m, .jmp _ a r ha hr⟩

/-- No fault of an instruction that does not read the stack depends on memory. -/
theorem FaultReason.withMem {c : FaultCause} {info : Word9} (h : FaultReason i s c info) (hi : ¬ ReadsStack i)
    (m : Memory) : FaultReason i (s.withMem m) c info := by
  cases h with
  | illegalRegister i s b hb hf => exact .illegalRegister i _ b hb hf
  | returnAddress s a r ha hpc => exact .returnAddress (s.withMem m) a r ha hpc
  | pushAtZero s a r ha hs => exact .pushAtZero _ a r ha hs
  | callAtZero s a r ha hpc hs => exact .callAtZero _ a r ha hpc hs
  | popAtTop s a r ha hr hs => exact absurd (.inr ⟨a, rfl⟩) hi
  | popSpAtTop s a ha hv => exact absurd (.inr ⟨a, rfl⟩) hi
  | retAtTop s hs => exact absurd (.inl rfl) hi

/-- No UnwrittenRead depends on memory. -/
theorem UnwrittenReason.withMem (h : UnwrittenReason i s) (m : Memory) : UnwrittenReason i (s.withMem m) := by
  cases h with
  | prn s a r ha hr => exact .prn _ a r ha hr
  | mul s a b ra rb ha hb hu => exact .mul _ a b ra rb ha hb hu
  | add s a b ra rb ha hb hu => exact .add _ a b ra rb ha hb hu
  | cmp s a b ra rb ha hb hu => exact .cmp _ a b ra rb ha hb hu
  | push s a r ha hs hr => exact .push _ a r ha hs hr
  | call s a r ha hpc hs hr => exact .call _ a r ha hpc hs hr
  | jeqFlags s a r ha hf => exact .jeqFlags _ a r ha hf
  | jeqTarget s a r ha hf he hr => exact .jeqTarget _ a r ha hf he hr
  | jneFlags s a r ha hf => exact .jneFlags _ a r ha hf
  | jneTarget s a r ha hf he hr => exact .jneTarget _ a r ha hf he hr
  | jmp s a r ha hr => exact .jmp _ a r ha hr

/-- With another memory, an instruction that does not read the stack answers the same in everything but memory. -/
theorem exec_withMem (h : exec i s = .next t) (hi : ¬ ReadsStack i) (m : Memory) :
    ∃ m', exec i (s.withMem m) = .next (t.withMem m') := by
  rcases effect_or_stop_of_exec h with he | ⟨c, info, rfl, hf⟩ | ⟨rfl, hu⟩
  · obtain ⟨m', he'⟩ := he.withMem hi m
    exact ⟨m', exec_of_effect he'⟩
  · exact ⟨m, exec_of_reason (hf.withMem hi m)⟩
  · exact ⟨m, exec_of_unwritten (hu.withMem m)⟩

/-- Settles O55: the instruction lies at the pc of both memories, so both steps run it. -/
theorem otherBytesHaveNoEffect : Obligations.OtherBytesHaveNoEffect := by
  intro i rest s t m hs _ ho hd hret hpop agree h
  have lies : LiesAtPc i s := liesAtPc_iff_decode.mpr ⟨rest, hd⟩
  have ⟨fits, bytes⟩ := lies
  have lies' : LiesAtPc i (s.withMem m) := ⟨fits, fun k hk => (agree k hk).trans (bytes k hk)⟩
  have hi : ¬ ReadsStack i := not_or.mpr ⟨hret, not_exists.mpr hpop⟩
  obtain ⟨m', h'⟩ := exec_withMem ((step_eq_exec_of_liesAtPc hs lies ho).symm.trans h) hi m
  have step' : step (s.withMem m) = exec i (s.withMem m).beginStep := step_eq_exec_of_liesAtPc hs lies' ho
  exact ⟨_, step'.trans h', rfl⟩

end Sys2Proof.Machine
end

section
/-! The execution cycle: the faults of the fetch and of the operand checks, and the advance of the pc, with the
obligations on them (spec 40_execution_cycle.md). -/

namespace Sys2Proof

/-! ### Bytes that do not decode -/

/-- Operand bytes fail to decode for one reason only: there are too few of them (30_encoding.md R41). -/
theorem decodeOperands_error {e : RomEntry} {bs : List Byte} {err : DecodeError}
    (h : decodeOperands e bs = .error err) : err = .truncated := by
  unfold decodeOperands at h
  split at h <;> cases h
  rfl

/-- Fewer bytes than the entry counts do not decode (40_execution_cycle.md R59). -/
theorem decodeOperands_short {e : RomEntry} {bs : List Byte} (h : bs.length < e.count) :
    decodeOperands e bs = .error .truncated := by
  unfold decodeOperands
  split
  next hc => simp [hc] at h
  next hc => simp [hc] at h
  next hc => simp [hc] at h
  next => rfl

/-- Bytes that begin with `op` fail to decode because `op` is invalid or because they end before its operands do. -/
theorem decode_cons_error {op : Byte} {bs : List Byte} {err : DecodeError}
    (h : decode (op :: bs) = .error err) : err = .illegalOpcode op ∨ err = .truncated := by
  cases hr : rom op with
  | none =>
    rw [decode, hr] at h
    exact .inl (Except.error.inj h).symm
  | some e => exact .inr (decodeOperands_error ((decode_cons_of_rom hr bs).symm.trans h))

namespace Machine

variable {i : Instr} {s t : State}

/-! ### The advance of the pc -/

/-- An effect whose opcode has the sets-PC bit 0 advances the pc by the instruction's length
(40_execution_cycle.md R62). -/
theorem Effect.pc_eq {op : Byte} (h : Effect i s t) (hop : (encode i).head? = some op) (hc : opC op = false) :
    t.pc = BitVec.ofNat 9 (s.pc.toNat + (encode i).length) := by
  cases h with
  | call | ret | jeqTaken | jeqNotTaken | jneTaken | jneNotTaken | jmp =>
    cases hop
    exact absurd hc (by decide)
  | _ => rfl

/-! ### Fault entry by the fetch -/

/-- A fault of the fetch is what the step enters (40_execution_cycle.md R64). -/
theorem step_entersFault_of_fetch {c : FaultCause} {info : Word9} (hs : s.TakesSteps)
    (h : fetch s.beginStep = .raise c info) : EntersFault s.beginStep (step s) c info := by
  rw [step_running hs, h]
  exact entersFault_raise _ _ _

/-- The over-fetch check stops a step only at 254 or above, with OVERFETCH_FAULT (40_execution_cycle.md R57). -/
theorem not_overfetchPasses (h : ¬ OverfetchPasses s) : s.params.overfetchFault = true ∧ 253 < s.pc.toNat := by
  simpa [OverfetchPasses] using h

/-- Settles O7: the fetch's first check. -/
theorem fetchPastTheEndFaults : Obligations.FetchPastTheEndFaults := fun s hs h =>
  step_entersFault_of_fetch hs (fetch_past (s := s.beginStep) h)

/-- Settles O8: the fetch's second check, before the decoder sees a byte. -/
theorem overfetchFaultsBeforeDecode : Obligations.OverfetchFaultsBeforeDecode := fun s hs ho h h' =>
  step_entersFault_of_fetch hs (fetch_overfetch (s := s.beginStep) h h' ho)

/-! ### The step and the bytes at the pc -/

/-- Settles O5: bytes that lie at the pc are the ones the fetch decodes. -/
theorem stepRunsTheInstructionAtPc : Obligations.StepRunsTheInstructionAtPc := fun _ _ hs lies ho =>
  step_eq_exec_of_liesAtPc hs lies ho

/-- Settles O6: bytes that decode are an instruction that lies at the pc; with an opcode byte in memory the decoder has
two errors, and the fetch raises a fault for each. -/
theorem stepFollowsTheBytesAtPc : Obligations.StepFollowsTheBytesAtPc := by
  intro s hs hpc ho
  cases hd : decode (bytesFromPc s) with
  | ok p => exact step_eq_exec_of_liesAtPc hs (liesAtPc_iff_decode.mpr ⟨p.2, hd⟩) ho
  | error err =>
    have fault := fetch_error (s := s.beginStep) hpc ho hd
    rw [bytesFromPc_eq hpc] at hd
    rcases decode_cons_error hd with rfl | rfl
    · exact ⟨rfl, step_entersFault_of_fetch hs fault⟩
    · exact step_entersFault_of_fetch hs fault

/-- Settles O10: the over-fetch check raises the fault, or the bytes are too few for the decoder. -/
theorem operandPastTheEndFaults : Obligations.OperandPastTheEndFaults := by
  intro s e hs hpc hrom hcount
  by_cases ho : OverfetchPasses s
  · have hd : decode (bytesFromPc s) = .error .truncated := by
      rw [bytesFromPc_eq hpc, decode_cons_of_rom hrom]
      refine decodeOperands_short ?_
      rw [List.length_map, List.length_range']
      omega
    exact step_entersFault_of_fetch hs (fetch_error (s := s.beginStep) hpc ho hd)
  · obtain ⟨hparam, h⟩ := not_overfetchPasses ho
    exact overfetchFaultsBeforeDecode s hs hparam h hpc

/-! ### The execution of an instruction -/

/-- Settles O11: the register check comes first in every meaning, and raising is fault entry. -/
theorem firstBadRegisterByteFaults : Obligations.FirstBadRegisterByteFaults := by
  intro i s b h
  rw [exec_illegalRegister h]
  exact entersFault_raise _ _ _

/-- Settles O32: the instruction has completed with its effect, and the advanced pc does not wrap. -/
theorem pcAdvancesPastTheInstruction : Obligations.PcAdvancesPastTheInstruction := by
  intro i s t op hop hc fits h hrun hmark
  rw [(effect_of_exec h hrun hmark).pc_eq hop hc, BitVec.toNat_ofNat]
  exact Nat.mod_eq_of_lt (by omega)

end Machine

end Sys2Proof
end

section
/-! The system instruction HLT and the core that it stops: what an update leaves unchanged, and the obligations on HLT and
on stopped cores (spec 41_system.md R66, R67). -/

namespace Sys2Proof.Machine

variable {s t : State}

/-! ### Frames -/

namespace UnchangedBut

variable {w : Writes}

theorem refl (w : Writes) (s : State) : UnchangedBut w s s where
  regs _ _ := ⟨rfl, rfl⟩
  cells _ _ := rfl
  fl _ := ⟨rfl, rfl⟩
  run _ := rfl
  output _ := ⟨rfl, rfl⟩
  latch := ⟨rfl, rfl⟩
  host := ⟨rfl, rfl, rfl⟩
  goesOn := rfl

/-- The pc stands outside every frame. -/
theorem advance (h : UnchangedBut w s t) (n : Nat) : UnchangedBut w s (t.advance n) := { h with }

theorem halt (h : UnchangedBut w s t) (hw : w.run = true) : UnchangedBut w s t.halt :=
  { h with run := fun hn => nomatch hw.symm.trans hn }

end UnchangedBut

/-- From a pc of memory an instruction of at most three bytes advances the pc without wrapping
(40_execution_cycle.md R62). -/
theorem State.advance_pc_toNat {n : Nat} (hpc : s.pc.toNat ≤ 255) (hn : n ≤ 2) :
    (s.advance n).pc.toNat = s.pc.toNat + (1 + n) := by
  rw [State.advance_pc, BitVec.toNat_ofNat, Nat.mod_eq_of_lt (by omega), Nat.add_assoc]

/-! ### Stopped cores -/

/-- A Halted core takes no step (41_system.md R67). -/
theorem not_takesSteps_of_halted (h : s.run = .halted) : ¬ s.TakesSteps := fun hs => nomatch h.symm.trans hs.1

/-- Settles O12: a stopped core's step only begins one, which changes nothing in a stopped state of the invariant. -/
theorem stoppedCoreHolds : Obligations.StoppedCoreHolds := by
  intro s inv hrun
  have stopped : ¬ s.TakesSteps := fun hs => hrun hs.1
  constructor
  · rw [step_stopped stopped, inv.beginStep_eq_of_stopped stopped]
  · rw [State.outValidPin, inv.stoppedPort stopped, Option.isSome_none]

/-! ### HLT -/

/-- The opcode fetch at 256, the one address past the end that the pc reaches, records 256 (40_execution_cycle.md R56). -/
theorem step_entersFault_at_256 (hs : s.TakesSteps) (hpc : s.pc.toNat = 256) :
    EntersFault s.beginStep (step s) .addressRange 256 := by
  have fault := fetchPastTheEndFaults s hs (by omega)
  rwa [show s.pc = 256 from BitVec.eq_of_toNat_eq hpc] at fault

/-- Settles O14: HLT's effect is to halt and to advance, and the step of the Halted core only begins one; the two faults
are the fetch's. -/
theorem hltHalts : Obligations.HltHalts := by
  refine ⟨⟨rom_hlt, by decide, by decide, by decide⟩, decode_encode_append .hlt [], fun s => ⟨fun hpc => ?_,
    step_entersFault_at_256, overfetchFaultsBeforeDecode s⟩⟩
  have halted : (s.halt.advance 0).run = .halted := rfl
  have frame : UnchangedBut { run := true } s (s.halt.advance 0) := ((UnchangedBut.refl _ s).halt rfl).advance 0
  have held := step_stopped (not_takesSteps_of_halted halted)
  exact ⟨_, exec_of_effect (.hlt s), halted, State.advance_pc_toNat (s := s.halt) hpc (Nat.zero_le 2),
    decide_eq_true halted, frame, _, held, rfl, rfl, rfl⟩

end Sys2Proof.Machine
end

section
/-! Data movement and output: what a register write and an emission leave unchanged, the fault of an instruction that does
not fit, and the obligations on LDI and PRN (spec 42_data_output.md R68, R69). -/

namespace Sys2Proof.Machine

variable {s t : State}

/-! ### Frames -/

namespace UnchangedBut

variable {w : Writes}

theorem writeReg (h : UnchangedBut w s t) {r : Reg} (hw : r ∈ w.regs) (v : Byte) :
    UnchangedBut w s (t.writeReg r v) :=
  { h with
    regs := fun q hq => by
      have hne : q ≠ r := fun e => hq (e ▸ hw)
      rw [State.writeReg_reg_ne t v hne, State.writeReg_holds_ne t v hne]
      exact h.regs q hq }

theorem emit (h : UnchangedBut w s t) (hw : w.output = true) (v : Byte) : UnchangedBut w s (t.emit v) :=
  { h with output := fun hn => nomatch hw.symm.trans hn }

end UnchangedBut

/-! ### An instruction that does not fit -/

/-- A valid opcode byte whose operands do not all lie in memory enters ADDRESS_RANGE (40_execution_cycle.md R59). -/
theorem step_entersFault_of_doesNotFit {op : Byte} {e : RomEntry} (hrom : rom op = some e)
    (h : DoesNotFit op e.count s) : EntersFault s.beginStep (step s) .addressRange 256 := by
  obtain ⟨hs, hpc, hop, hcount⟩ := h
  exact operandPastTheEndFaults s e hs hpc (hop ▸ hrom) hcount

/-! ### LDI and PRN -/

/-- Settles O15: LDI's effect is to write the register and to advance; the faults are those of the register check and of
the fetch. -/
theorem ldiLoadsTheImmediate : Obligations.LdiLoadsTheImmediate := by
  refine ⟨⟨rom_ldi, by decide, by decide, by decide⟩, fun a imm s => ⟨decode_encode_append (.ldi a imm) [],
    fun ha => firstBadRegisterByteFaults (.ldi a imm) s a (find_first ha),
    step_entersFault_of_doesNotFit rom_ldi, fun r ha hpc => ?_⟩⟩
  have frame : UnchangedBut { regs := [r] } s ((s.writeReg r imm).advance 2) :=
    ((UnchangedBut.refl _ s).writeReg (List.mem_singleton_self r) imm).advance 2
  have pc : ((s.writeReg r imm).advance 2).pc.toNat = s.pc.toNat + 3 :=
    State.advance_pc_toNat (s := s.writeReg r imm) (show s.pc.toNat ≤ 255 by omega) le_rfl
  exact ⟨_, exec_of_effect (.ldi s a imm r ha), State.writeReg_reg_same s r imm, State.writeReg_holds_same s r imm, pc,
    frame⟩

/-- Settles O16: PRN's effect on a register that holds a value is to emit it and to advance; the faults are those of the
register check and of the fetch. -/
theorem prnEmitsTheRegister : Obligations.PrnEmitsTheRegister := by
  refine ⟨⟨rom_prn, by decide, by decide, by decide⟩, fun a s => ⟨decode_encode_append (.prn a) [],
    fun ha => firstBadRegisterByteFaults (.prn a) s a (find_first ha),
    step_entersFault_of_doesNotFit rom_prn, fun r ha held hpc => ?_⟩⟩
  have frame : UnchangedBut { output := true } s ((s.emit (s.reg r)).advance 1) :=
    ((UnchangedBut.refl _ s).emit rfl (s.reg r)).advance 1
  have pc : ((s.emit (s.reg r)).advance 1).pc.toNat = s.pc.toNat + 2 :=
    State.advance_pc_toNat (s := s.emit (s.reg r)) (show s.pc.toNat ≤ 255 by omega) (by decide)
  exact ⟨_, exec_of_effect (.prn s a r ha held), rfl, rfl, pc, frame⟩

end Sys2Proof.Machine
end

section
/-! The ALU: what an instruction that writes its result, and one that writes FL, leaves behind, the flags of a comparison,
and the obligations on MUL, ADD, CMP and a branch after CMP (spec 43_alu.md R72-R76, 45_control_transfer.md R84, R85). -/

namespace Sys2Proof.Machine

variable {i : Instr} {s : State} {a b : Byte} {ra rb : Reg}

/-! ### Frames -/

theorem UnchangedBut.setFl {t : State} {w : Writes} (h : UnchangedBut w s t) (hw : w.fl = true) (v : BitVec 3) :
    UnchangedBut w s (t.setFl v) :=
  { h with fl := fun hn => nomatch hw.symm.trans hn }

/-! ### The effects -/

/-- A three-byte instruction whose effect is one register write leaves the result in its register, whichever it is, and
advances (43_alu.md R72, R73). -/
theorem exec_writes_result {v : Byte} (h : Effect i s ((s.writeReg ra v).advance 2)) (hpc : s.pc.toNat ≤ 253) :
    ∃ t, exec i s = .next t ∧ t.reg ra = v ∧ t.pc.toNat = s.pc.toNat + 3 ∧ UnchangedBut { regs := [ra] } s t := by
  have pc : ((s.writeReg ra v).advance 2).pc.toNat = s.pc.toNat + 3 :=
    State.advance_pc_toNat (s := s.writeReg ra v) (show s.pc.toNat ≤ 255 by omega) le_rfl
  exact ⟨_, exec_of_effect h, State.writeReg_reg_same s ra v, pc,
    ((UnchangedBut.refl _ s).writeReg (List.mem_singleton_self ra) v).advance 2⟩

/-- CMP gives FL the flags of the two values, writes nothing else and advances (43_alu.md R74). -/
theorem exec_cmp_sets_fl (ha : a.toNat = ra.val) (hb : b.toNat = rb.val) (ua : s.holds ra = true)
    (ub : s.holds rb = true) (hpc : s.pc.toNat ≤ 253) :
    ∃ t, exec (.cmp a b) s = .next t ∧ t.fl = aluCmp (s.reg ra) (s.reg rb) ∧ t.flUnwritten = false ∧
      t.pc.toNat = s.pc.toNat + 3 ∧ UnchangedBut { fl := true } s t := by
  have pc : ((s.setFl (aluCmp (s.reg ra) (s.reg rb))).advance 2).pc.toNat = s.pc.toNat + 3 :=
    State.advance_pc_toNat (s := s.setFl _) (show s.pc.toNat ≤ 255 by omega) le_rfl
  exact ⟨_, exec_of_effect (.cmp s a b ra rb ha hb ua ub), rfl, rfl, pc,
    ((UnchangedBut.refl _ s).setFl rfl _).advance 2⟩

/-! ### The flags of a comparison -/

theorem aluCmp_of_lt {u v : Byte} (h : u.toNat < v.toNat) : aluCmp u v = 0b100 := if_pos h

theorem aluCmp_of_gt {u v : Byte} (h : v.toNat < u.toNat) : aluCmp u v = 0b010 :=
  (if_neg (Nat.lt_asymm h)).trans (if_pos h)

theorem aluCmp_self (u : Byte) : aluCmp u u = 0b001 :=
  (if_neg (Nat.lt_irrefl _)).trans (if_neg (Nat.lt_irrefl _))

/-- Each of the bits L, G and E is 1 exactly for its order of the two bytes (43_alu.md R74, 10_state.md R16). -/
theorem aluCmp_bits (u v : Byte) :
    ((aluCmp u v).getLsbD 2 = true ↔ u.toNat < v.toNat) ∧ ((aluCmp u v).getLsbD 1 = true ↔ v.toNat < u.toNat) ∧
      ((aluCmp u v).getLsbD 0 = true ↔ u = v) := by
  rw [← BitVec.toNat_inj]
  rcases aluCmp_cases u v with ⟨h, e⟩ | ⟨h, e⟩ | ⟨rfl, e⟩ <;> rw [e]
  · simp [h, h.le, h.ne]
  · simp [h, h.le, h.ne']
  · simp

/-! ### MUL, ADD and CMP -/

/-- Settles O17: MUL's effect is to write the product and to advance; the faults are those of the register check, `a`
before `b`, and of the fetch. -/
theorem mulMultipliesModulo256 : Obligations.MulMultipliesModulo256 := by
  refine ⟨⟨rom_mul, by decide, by decide, by decide⟩, fun a b s => ⟨decode_encode_append (.mul a b) [],
    fun ha => firstBadRegisterByteFaults (.mul a b) s a (find_first ha),
    fun ha hb => firstBadRegisterByteFaults (.mul a b) s b (find_second ha hb),
    step_entersFault_of_doesNotFit rom_mul, fun ra rb ha hb ua ub hpc => ?_⟩⟩
  obtain ⟨t, e, result, pc, frame⟩ := exec_writes_result (.mul s a b ra rb ha hb ua ub) hpc
  exact ⟨t, e, result ▸ aluMul_toNat _ _, pc, frame⟩

/-- Settles O18: ADD's effect is to write the sum and to advance; the faults are those of the register check, `a` before
`b`, and of the fetch. -/
theorem addAddsModulo256 : Obligations.AddAddsModulo256 := by
  refine ⟨⟨rom_add, by decide, by decide, by decide⟩, fun a b s => ⟨decode_encode_append (.add a b) [],
    fun ha => firstBadRegisterByteFaults (.add a b) s a (find_first ha),
    fun ha hb => firstBadRegisterByteFaults (.add a b) s b (find_second ha hb),
    step_entersFault_of_doesNotFit rom_add, fun ra rb ha hb ua ub hpc => ?_⟩⟩
  obtain ⟨t, e, result, pc, frame⟩ := exec_writes_result (.add s a b ra rb ha hb ua ub) hpc
  exact ⟨t, e, result ▸ aluAdd_toNat _ _, pc, frame⟩

/-- Settles O19: CMP's effect is to write the flags of the two values and to advance; the faults are those of the register
check, `a` before `b`, and of the fetch. -/
theorem cmpSetsOneFlag : Obligations.CmpSetsOneFlag := by
  refine ⟨⟨rom_cmp, by decide, by decide, by decide⟩, fun a b s => ⟨decode_encode_append (.cmp a b) [],
    fun ha => firstBadRegisterByteFaults (.cmp a b) s a (find_first ha),
    fun ha hb => firstBadRegisterByteFaults (.cmp a b) s b (find_second ha hb),
    step_entersFault_of_doesNotFit rom_cmp, fun ra rb ha hb ua ub hpc => ?_⟩⟩
  obtain ⟨t, e, fl, held, pc, frame⟩ := exec_cmp_sets_fl ha hb ua ub hpc
  obtain ⟨bitL, bitG, bitE⟩ := aluCmp_bits (s.reg ra) (s.reg rb)
  rw [← fl] at bitL bitG bitE
  exact ⟨t, e, fun h => fl.trans (aluCmp_of_lt h), fun h => fl.trans (aluCmp_of_gt h),
    fun h => fl.trans (h ▸ aluCmp_self _), bitL, bitG, bitE, held, pc, frame⟩

/-! ### A branch after CMP -/

/-- Settles O51: CMP leaves the E bit set exactly on equal values and the third register as it was, and of JEQ and JNE one
then jumps to its value and the other advances past the branch. -/
theorem compareThenBranch : Obligations.CompareThenBranch := by
  intro a b c ra rb rc s ha hb hc ua ub uc hpc
  obtain ⟨t, e, fl, held, pc, frame⟩ := exec_cmp_sets_fl ha hb ua ub (show s.pc.toNat ≤ 253 by omega)
  have equal : t.flagE = true ↔ s.reg ra = s.reg rb := by
    obtain ⟨-, -, bitE⟩ := aluCmp_bits (s.reg ra) (s.reg rb)
    rwa [State.flagE_eq, fl]
  obtain ⟨target, holds⟩ := frame.regs rc List.not_mem_nil
  have uc' : t.holds rc = true := holds.trans uc
  have jumped : (t.setPc (t.reg rc)).pc.toNat = (s.reg rc).toNat := by rw [State.setPc_pc, zext9_toNat, target]
  have passed : (t.advance 1).pc.toNat = s.pc.toNat + 5 := by
    rw [State.advance_pc_toNat (by omega) (by decide), pc]
  by_cases h : s.reg ra = s.reg rb
  · have flag : t.flagE = true := equal.mpr h
    simp only [if_pos h]
    exact ⟨t, _, _, e, exec_of_effect (.jeqTaken t c rc hc held flag uc'),
      exec_of_effect (.jneNotTaken t c rc hc held flag), jumped, passed⟩
  · have flag : t.flagE = false := Bool.eq_false_iff.mpr fun he => h (equal.mp he)
    simp only [if_neg h]
    exact ⟨t, _, _, e, exec_of_effect (.jeqNotTaken t c rc hc held flag),
      exec_of_effect (.jneTaken t c rc hc held flag uc'), passed, jumped⟩

end Sys2Proof.Machine
end

section
/-! The stack: what PUSH and POP do and leave unchanged, how a push and a pop around a sequence cancel, and the obligations
on PUSH, POP and the LIFO law (spec 44_stack.md R77-R80). -/

namespace Sys2Proof.Machine

variable {i : Instr} {s t : State} {a : Byte} {r : Reg}

/-! ### Frames -/

namespace UnchangedBut

variable {w : Writes}

theorem writeMem (h : UnchangedBut w s t) {c : Byte} (hw : c.toNat ∈ w.cells) (v : Byte) :
    UnchangedBut w s (t.writeMem c v) :=
  { h with
    cells := fun k hk => (Memory.read_write_ne t.mem v fun e : k = c.toNat => hk (e ▸ hw)).trans (h.cells k hk) }

/-- A push writes SP and the cell below it. -/
theorem push (h : UnchangedBut w s t) (hsp : Config.spIndex ∈ w.regs) (hcell : (t.sp - 1).toNat ∈ w.cells) (v : Byte) :
    UnchangedBut w s (t.push v) :=
  (h.writeReg hsp _).writeMem hcell v

end UnchangedBut

/-- An instruction one of whose fault reasons holds enters that fault (60_exceptions.md R97). -/
theorem exec_entersFault_of_reason {c : FaultCause} {info : Word9} (h : FaultReason i s c info) :
    EntersFault s (exec i s) c info := by
  rw [exec_of_reason h]
  exact entersFault_raise _ _ _

/-! ### PUSH and POP -/

/-- PUSH moves SP down, stores the register at the new SP, the new SP itself for R7, and advances (44_stack.md R78). -/
theorem exec_push_stores (ha : a.toNat = r.val) (hs : s.sp ≠ 0) (held : s.holds r = true) (hwf : s.mem.wf) :
    ∃ t, exec (.push a) s = .next t ∧ t.sp = s.sp - 1 ∧
      t.mem.read (s.sp - 1).toNat = (if r = 7 then s.sp - 1 else s.reg r) ∧ t.mem.wf ∧
      (s.pc.toNat ≤ 254 → t.pc.toNat = s.pc.toNat + 2) ∧
      UnchangedBut { regs := [7], cells := [(s.sp - 1).toNat] } s t :=
  ⟨_, exec_of_effect (.push s a r ha hs held), s.writeReg_reg_same _ _, Memory.read_write_same hwf _ _,
    Memory.wf_write hwf (s.sp - 1).isLt _,
    fun hpc => State.advance_pc_toNat (s := s.push _) (Nat.le_succ_of_le hpc) (by decide),
    ((UnchangedBut.refl _ s).push (List.mem_singleton_self _) (List.mem_singleton_self _) _).advance 1⟩

/-- POP to a register other than R7 loads the byte at SP, moves SP up and advances (44_stack.md R79). -/
theorem exec_pop_loads (ha : a.toNat = r.val) (hr : r ≠ 7) (hs : s.sp ≠ 255) :
    ∃ t, exec (.pop a) s = .next t ∧ t.reg r = s.mem.read s.sp.toNat ∧ t.holds r = true ∧ t.sp = s.sp + 1 ∧
      (s.pc.toNat ≤ 254 → t.pc.toNat = s.pc.toNat + 2) ∧ UnchangedBut { regs := [r, 7] } s t := by
  have frame : UnchangedBut { regs := [r, 7] } s ((s.writeReg r (s.readMem s.sp)).setSp (s.sp + 1)) :=
    ((UnchangedBut.refl _ s).writeReg (List.mem_cons_self ..) _).writeReg (by simp) _
  exact ⟨_, exec_of_effect (.pop s a r ha hr hs),
    (State.writeReg_reg_ne _ _ hr).trans (s.writeReg_reg_same r _),
    (State.writeReg_holds_ne _ (s.sp + 1) hr).trans (s.writeReg_holds_same r _), State.writeReg_reg_same _ _ _,
    fun hpc => State.advance_pc_toNat (s := State.setSp _ _) (Nat.le_succ_of_le hpc) (by decide), frame.advance 1⟩

/-- POP R7 leaves the byte at SP plus 1 in SP and advances (44_stack.md R79; D17). -/
theorem exec_pop_sp (ha : a.toNat = 7) (hv : s.mem.read s.sp.toNat ≠ 255) :
    ∃ t, exec (.pop a) s = .next t ∧ t.sp = s.mem.read s.sp.toNat + 1 ∧
      (s.pc.toNat ≤ 254 → t.pc.toNat = s.pc.toNat + 2) ∧ UnchangedBut { regs := [7] } s t := by
  have frame : UnchangedBut { regs := [7] } s
      ((s.writeReg Config.spIndex (s.readMem s.sp)).setSp (s.readMem s.sp + 1)) :=
    ((UnchangedBut.refl _ s).writeReg (List.mem_singleton_self _) _).writeReg (List.mem_singleton_self _) _
  exact ⟨_, exec_of_effect (.popSp s a ha hv), State.writeReg_reg_same _ _ _,
    fun hpc => State.advance_pc_toNat (s := State.setSp _ _) (Nat.le_succ_of_le hpc) (by decide), frame.advance 1⟩

theorem toNat_sub_one {v : Byte} (h : v ≠ 0) : (v - 1).toNat = v.toNat - 1 := by
  bv_omega

theorem toNat_add_one {v : Byte} (h : v ≠ 255) : (v + 1).toNat = v.toNat + 1 := by
  bv_omega

/-- Settles O20: PUSH's effect is the push at SP - 1; the faults are those of the register check, of the fetch and of the
check of SP. -/
theorem pushStoresBelowSp : Obligations.PushStoresBelowSp := by
  refine ⟨⟨rom_push, by decide, by decide, by decide⟩, fun a s => ⟨decode_encode_append (.push a) [],
    fun ha => firstBadRegisterByteFaults (.push a) s a (find_first ha),
    step_entersFault_of_doesNotFit rom_push, fun r ha =>
      ⟨fun hs => exec_entersFault_of_reason (.pushAtZero s a r ha hs), fun hs held hwf hpc => ?_⟩⟩⟩
  obtain ⟨t, e, sp, stored, -, pc, frame⟩ := exec_push_stores ha hs held hwf
  exact ⟨t, e, sp ▸ toNat_sub_one hs, fun hr => stored.trans (if_neg hr), fun hr => stored.trans (if_pos hr), pc hpc,
    frame⟩

/-- Settles O21: POP's effect is to load the byte at SP and to move SP up from what it is then; the faults are those of the
register check, of the fetch and of the check of SP, which for R7 is the byte loaded. -/
theorem popLoadsFromSp : Obligations.PopLoadsFromSp := by
  refine ⟨⟨rom_pop, by decide, by decide, by decide⟩, fun a s => ⟨decode_encode_append (.pop a) [],
    fun ha => firstBadRegisterByteFaults (.pop a) s a (find_first ha),
    step_entersFault_of_doesNotFit rom_pop, fun r ha hr =>
      ⟨fun hs => exec_entersFault_of_reason (.popAtTop s a r ha hr hs), fun hs hpc => ?_⟩, fun ha =>
      ⟨fun hv => exec_entersFault_of_reason (.popSpAtTop s a ha hv), fun hv hpc => ?_⟩⟩⟩
  · obtain ⟨t, e, loaded, held, sp, pc, frame⟩ := exec_pop_loads ha hr hs
    exact ⟨t, e, loaded, held, sp ▸ toNat_add_one hs, pc hpc, frame⟩
  · obtain ⟨t, e, sp, pc, frame⟩ := exec_pop_sp ha hv
    exact ⟨t, e, sp ▸ toNat_add_one hv, pc hpc, frame⟩

/-! ### Sequences -/

theorem execAll_cons_of_exec {is : List Instr} (h : exec i s = .next t) : execAll (i :: is) s = execAll is t := by
  rw [execAll, h]

/-- A sequence that completes can be followed by another. -/
theorem execAll_append_of_next {is : List Instr} (js : List Instr) (h : execAll is s = .next t) :
    execAll (is ++ js) s = execAll js t := by
  induction is generalizing s with
  | nil =>
    cases h
    rfl
  | cons i is ih =>
    cases e : exec i s with
    | next u =>
      rw [execAll_cons_of_exec e] at h
      rw [List.cons_append, execAll_cons_of_exec e, ih h]
    | fault f => cases f
    | refused f =>
      rw [execAll, e] at h
      cases h

/-- The value that the last of the `loads` naming `x[r]` gives it, in load order, or `d` where none names it. -/
def lastLoad (loads : List (Reg × Byte)) (r : Reg) (d : Byte) : Byte :=
  ((loads.reverse.find? fun p => p.1 == r).map Prod.snd).getD d

theorem lastLoad_nil (r : Reg) (d : Byte) : lastLoad [] r d = d := rfl

theorem lastLoad_concat (loads : List (Reg × Byte)) (q r : Reg) (v d : Byte) :
    lastLoad (loads ++ [(q, v)]) r d = if r = q then v else lastLoad loads r d := by
  rw [lastLoad, List.reverse_concat, List.find?_cons]
  by_cases h : r = q
  · simp [h]
  · have hne : (q == r) = false := beq_false_of_ne (Ne.symm h)
    simp only [hne, if_neg h]
    rfl

/-- The loads of the pops `pops` after the pushes `pushes` of the registers of `s`: the pushed values in reverse order. -/
def lifoLoads (pushes pops : List Reg) (s : State) : List (Reg × Byte) := pops.zip (pushes.reverse.map s.reg)

theorem lifoLoads_nest {pushes pops : List Reg} (h : pushes.length = pops.length) (p q : Reg) (s : State) :
    lifoLoads (p :: pushes) (pops ++ [q]) s = lifoLoads pushes pops s ++ [(q, s.reg p)] := by
  rw [lifoLoads, List.reverse_cons, List.map_append, List.zip_append (by simp [h])]
  rfl

theorem lifoLoads_congr {pushes : List Reg} (h : ∀ r ∈ pushes, t.reg r = s.reg r) (pops : List Reg) :
    lifoLoads pushes pops t = lifoLoads pushes pops s := by
  rw [lifoLoads, List.map_congr_left fun r hr => h r (List.mem_reverse.mp hr), lifoLoads]

/-- The pushes `pushes`, then the pops `pops`. -/
def pushesThenPops (pushes pops : List Reg) : List Instr :=
  pushes.map (fun r => .push (BitVec.ofNat 8 r.val)) ++ pops.map fun r => .pop (BitVec.ofNat 8 r.val)

/-- A push and a pop more stand around the sequence. -/
theorem pushesThenPops_nest (p q : Reg) (pushes pops : List Reg) :
    pushesThenPops (p :: pushes) (pops ++ [q]) =
      .push (BitVec.ofNat 8 p.val) :: (pushesThenPops pushes pops ++ [.pop (BitVec.ofNat 8 q.val)]) := by
  simp [pushesThenPops]

/-- What `k` pushes and `k` pops leave (44_stack.md R80): the registers after `loads`, and everything but the `k` cells
below SP as it was. -/
structure LifoLeaves (k : Nat) (loads : List (Reg × Byte)) (s t : State) : Prop where
  sp    : t.sp = s.sp
  run   : t.run = s.run
  fl    : t.fl = s.fl
  out   : t.out = s.out
  regs  : ∀ r : Reg, r ≠ 7 → t.reg r = lastLoad loads r (s.reg r)
  cells : ∀ c : Nat, (c < s.sp.toNat - k ∨ s.sp.toNat ≤ c) → t.mem.read c = s.mem.read c

/-- A push before the sequence and a pop after it: the pop's load comes last, and the cell of the push is one more below
SP. -/
theorem LifoLeaves.nest {k : Nat} {loads : List (Reg × Byte)} {u v : State} {q : Reg} (hs : s.sp ≠ 0)
    (usp : u.sp = s.sp - 1) (before : UnchangedBut { regs := [7], cells := [(s.sp - 1).toNat] } s u)
    (between : LifoLeaves k loads u t) (vsp : v.sp = t.sp + 1) (after : UnchangedBut { regs := [q, 7] } t v) :
    LifoLeaves (k + 1) (loads ++ [(q, v.reg q)]) s v where
  sp := by rw [vsp, between.sp, usp, BitVec.sub_add_cancel]
  run := ((after.run rfl).trans between.run).trans (before.run rfl)
  fl := ((after.fl rfl).1.trans between.fl).trans (before.fl rfl).1
  out := ((after.output rfl).1.trans between.out).trans (before.output rfl).1
  regs r hr := by
    rw [lastLoad_concat]
    by_cases hq : r = q
    · rw [if_pos hq, hq]
    · rw [if_neg hq, (after.regs r (by simp [hq, hr])).1, between.regs r hr, (before.regs r (by simp [hr])).1]
  cells c hc := by
    have down : (s.sp - 1).toNat = s.sp.toNat - 1 := toNat_sub_one hs
    have nonzero : s.sp.toNat ≠ 0 := fun h => hs (BitVec.eq_of_toNat_eq h)
    have other : c ≠ (s.sp - 1).toNat := by omega
    have outside : c < u.sp.toNat - k ∨ u.sp.toNat ≤ c := by
      rw [usp]
      omega
    rw [after.cells c List.not_mem_nil, between.cells c outside, before.cells c (by simpa using other)]

theorem regByte_toNat (r : Reg) : (BitVec.ofNat 8 r.val : Byte).toNat = r.val := by
  rw [BitVec.toNat_ofNat]
  exact Nat.mod_eq_of_lt (by omega)

/-- The LIFO law, by induction on the pushes: the first push and the last pop stand around a shorter sequence, which
leaves the byte of that push for that pop. -/
theorem execAll_pushesThenPops (pushes pops : List Reg) (s : State) (hlen : pushes.length = pops.length)
    (hpush : ∀ r ∈ pushes, r ≠ 7 ∧ s.holds r = true) (hpop : ∀ r ∈ pops, r ≠ 7) (room : pushes.length ≤ s.sp.toNat)
    (hwf : s.mem.wf) :
    ∃ t, execAll (pushesThenPops pushes pops) s = .next t ∧ LifoLeaves pushes.length (lifoLoads pushes pops s) s t := by
  induction pushes generalizing pops s with
  | nil =>
    obtain rfl : pops = [] := List.length_eq_zero_iff.mp hlen.symm
    exact ⟨s, rfl, rfl, rfl, rfl, rfl, fun _ _ => rfl, fun _ _ => rfl⟩
  | cons p ps ih =>
    obtain ⟨qs, q, rfl⟩ : ∃ qs q, pops = qs ++ [q] :=
      (List.eq_nil_or_concat' pops).resolve_left fun h => by simp [h] at hlen
    obtain ⟨⟨hp, held⟩, hps⟩ := List.forall_mem_cons.mp hpush
    have hlen' : ps.length = qs.length := by simpa using hlen
    have room' : ps.length + 1 ≤ s.sp.toNat := room
    have hs : s.sp ≠ 0 := by bv_omega
    have down : (s.sp - 1).toNat = s.sp.toNat - 1 := toNat_sub_one hs
    obtain ⟨u, eu, usp, stored, uwf, -, before⟩ := exec_push_stores (regByte_toNat p) hs held hwf
    rw [if_neg hp, ← usp] at stored
    have same : ∀ r ∈ ps, u.reg r = s.reg r ∧ u.holds r = s.holds r := fun r hr =>
      before.regs r fun h => (hps r hr).1 (List.mem_singleton.mp h)
    have uroom : ps.length ≤ u.sp.toNat := by
      rw [usp]
      omega
    obtain ⟨t, et, between⟩ := ih qs u hlen' (fun r hr => ⟨(hps r hr).1, (same r hr).2.trans (hps r hr).2⟩)
      (fun r hr => hpop r (List.mem_append_left _ hr)) uroom uwf
    have ht : t.sp ≠ 255 := by
      rw [between.sp, usp]
      bv_omega
    obtain ⟨v, ev, loaded, -, vsp, -, after⟩ := exec_pop_loads (regByte_toNat q) (hpop q (by simp)) ht
    rw [between.sp, between.cells _ (.inr le_rfl), stored] at loaded
    refine ⟨v, ?_, ?_⟩
    · rw [pushesThenPops_nest, execAll_cons_of_exec eu, execAll_append_of_next _ et, execAll_cons_of_exec ev, execAll]
    · rw [lifoLoads_nest hlen', ← lifoLoads_congr (fun r hr => (same r hr).1), ← loaded]
      exact between.nest hs usp before vsp after

/-- Settles O49: what the pushes and pops leave, clause by clause. -/
theorem stackLifo : Obligations.StackLifo := by
  intro pushes pops s hlen hpush hpop room hwf
  obtain ⟨t, e, left⟩ := execAll_pushesThenPops pushes pops s hlen hpush hpop room hwf
  exact ⟨t, e, left.sp, left.run, left.fl, left.out, left.regs, left.cells⟩

end Sys2Proof.Machine
end

section
/-! Control transfer: what a jump, a CALL and a RET do and leave unchanged, the run of a jump to itself, and the obligations
on CALL, RET, JEQ, JNE and JMP (spec 45_control_transfer.md R81-R86). -/

namespace Sys2Proof.Machine

variable {i : Instr} {s t : State} {a : Byte} {r : Reg}

/-! ### Frames -/

namespace UnchangedBut

variable {w : Writes}

/-- The pc stands outside every frame. -/
theorem setPc (h : UnchangedBut w s t) (v : Byte) : UnchangedBut w s (t.setPc v) := { h with }

/-- A core that takes steps goes on taking them while its run state stands. -/
theorem takesSteps (h : UnchangedBut w s t) (hw : w.run = false) (hs : s.TakesSteps) : t.TakesSteps :=
  ⟨(h.run hw).trans hs.1, h.goesOn.trans hs.2⟩

end UnchangedBut

/-! ### What the rules of the one-register instructions begin with -/

/-- A one-register instruction decodes from its two bytes, its register check comes first, and it enters ADDRESS_RANGE at
255 (30_encoding.md R45, 40_execution_cycle.md R59, R60); `rest` is what its own rule adds. -/
theorem oneRegister_rule {op : Byte} {o : Operation} {b c : Bool} {rest : Prop} (hop : OpcodeIs op o .f1R 1 b c)
    (henc : encode i = [op, a]) (hregs : i.registerBytes = [a]) (h : rest) :
    decode [op, a] = .ok (i, []) ∧ (7 < a.toNat → EntersFault s (exec i s) .illegalRegister (zext9 a)) ∧
      (DoesNotFit op 1 s → EntersFault s.beginStep (step s) .addressRange 256) ∧ rest := by
  obtain ⟨hrom, -⟩ := hop
  exact ⟨(decodeInvertsEncode _ i []).mpr (by rw [henc, List.append_nil]),
    fun ha => firstBadRegisterByteFaults i s a (hregs ▸ find_first ha), step_entersFault_of_doesNotFit hrom, h⟩

/-! ### Jumps -/

/-- An instruction whose effect is a jump leaves the pc at the register's value and writes nothing else
(45_control_transfer.md R81). -/
theorem exec_jumps (h : Effect i s (s.setPc (s.reg r))) :
    ∃ t, exec i s = .next t ∧ t.pc.toNat = (s.reg r).toNat ∧ UnchangedBut {} s t :=
  ⟨_, exec_of_effect h, zext9_toNat _, (UnchangedBut.refl _ s).setPc _⟩

/-- A two-byte instruction whose effect is to advance writes nothing but the pc (45_control_transfer.md R84, R85). -/
theorem exec_passes (h : Effect i s (s.advance 1)) (hpc : s.pc.toNat ≤ 254) :
    ∃ t, exec i s = .next t ∧ t.pc.toNat = s.pc.toNat + 2 ∧ UnchangedBut {} s t :=
  ⟨_, exec_of_effect h, State.advance_pc_toNat (Nat.le_succ_of_le hpc) (by decide), (UnchangedBut.refl _ s).advance 1⟩

/-- Settles O24: JEQ's effect with E at 1 is the jump and with E at 0 the advance, which from 254 leaves the pc at 256. -/
theorem jeqJumpsWhenEqual : Obligations.JeqJumpsWhenEqual := by
  have hop : OpcodeIs 0x55 .jeq .f1R 1 false true := ⟨rom_jeq, by decide, by decide, by decide⟩
  refine ⟨hop, fun a s => oneRegister_rule hop rfl rfl fun r ha hf =>
    ⟨fun he held => exec_jumps (.jeqTaken s a r ha hf he held), fun he hpc => ?_⟩⟩
  obtain ⟨t, e, pc, frame⟩ := exec_passes (.jeqNotTaken s a r ha hf he) hpc
  exact ⟨t, e, pc, frame, fun hs h254 => step_entersFault_at_256 (frame.takesSteps rfl hs) (pc.trans (by omega))⟩

/-- Settles O25: JNE's effect with E at 0 is the jump and with E at 1 the advance. -/
theorem jneJumpsWhenNotEqual : Obligations.JneJumpsWhenNotEqual := by
  have hop : OpcodeIs 0x56 .jne .f1R 1 false true := ⟨rom_jne, by decide, by decide, by decide⟩
  exact ⟨hop, fun a s => oneRegister_rule hop rfl rfl fun r ha hf =>
    ⟨fun he held => exec_jumps (.jneTaken s a r ha hf he held),
      fun he hpc => exec_passes (.jneNotTaken s a r ha hf he) hpc⟩⟩

/-! ### A jump to itself -/

/-- A step does not see whether the step before it left a pulse on the output port. -/
theorem step_beginStep (s : State) : step s.beginStep = step s := rfl

/-- A core whose step does nothing but begin takes that step for ever (40_execution_cycle.md R65). -/
theorem not_ends_of_step_eq_beginStep (hs : s.TakesSteps) (h : step s = .next s.beginStep) : ¬ ∃ u, Ends s u := by
  rintro ⟨u, k, hu, stopped⟩
  cases k with
  | zero => exact stopped (Host.Outcome.next.inj hu ▸ hs)
  | succ k =>
    rw [runSteps_succ_of_step k h, runSteps_of_step_self ((step_beginStep s).trans h)] at hu
    exact stopped (Host.Outcome.next.inj hu ▸ hs)

/-- A jump to the address at which the pc stands changes nothing. -/
theorem State.setPc_self {v : Byte} (h : v.toNat = s.pc.toNat) : s.setPc v = s := by
  rw [State.setPc, BitVec.eq_of_toNat_eq ((zext9_toNat v).trans h)]

/-- A step that runs a JMP to its own address does nothing but begin (45_control_transfer.md R86). -/
theorem step_jmp_self (ha : a.toNat = r.val) (held : s.holds r = true) (self : (s.reg r).toNat = s.pc.toNat)
    (hs : s.TakesSteps) (lies : LiesAtPc (.jmp a) s) (ho : OverfetchPasses s) : step s = .next s.beginStep := by
  rw [step_eq_exec_of_liesAtPc hs lies ho, exec_of_effect (.jmp s.beginStep a r ha held)]
  exact congrArg _ (State.setPc_self self)

/-- Settles O26: JMP's effect is the jump, and to its own address it leaves the state as it was. -/
theorem jmpJumpsToTheRegister : Obligations.JmpJumpsToTheRegister := by
  have hop : OpcodeIs 0x54 .jmp .f1R 1 false true := ⟨rom_jmp, by decide, by decide, by decide⟩
  refine ⟨hop, fun a s => oneRegister_rule hop rfl rfl fun r ha held => ?_⟩
  obtain ⟨t, e, pc, frame⟩ := exec_jumps (.jmp s a r ha held)
  exact ⟨t, e, pc, frame, fun self => ⟨BitVec.eq_of_toNat_eq (pc.trans self), fun hs lies ho =>
    not_ends_of_step_eq_beginStep hs (step_jmp_self ha held self hs lies ho)⟩⟩

/-! ### CALL and RET -/

/-- CALL moves SP down, stores pc + 2 at the new SP and jumps to the register's value, for R7 the new SP
(45_control_transfer.md R82; D18). -/
theorem exec_call_pushes (ha : a.toNat = r.val) (hpc : s.pc.toNat ≤ 253) (hs : s.sp ≠ 0) (held : s.holds r = true)
    (hwf : s.mem.wf) :
    ∃ t, exec (.call a) s = .next t ∧ t.sp = s.sp - 1 ∧
      (t.mem.read (s.sp - 1).toNat).toNat = s.pc.toNat + 2 ∧
      t.pc.toNat = (if r = 7 then s.sp - 1 else s.reg r).toNat ∧
      UnchangedBut { regs := [7], cells := [(s.sp - 1).toNat] } s t := by
  have stored : ((s.push (BitVec.ofNat 8 (s.pc.toNat + 2))).mem.read (s.sp - 1).toNat).toNat = s.pc.toNat + 2 := by
    refine (congrArg BitVec.toNat (Memory.read_write_same hwf _ _)).trans ?_
    rw [BitVec.toNat_ofNat, Nat.mod_eq_of_lt (by omega)]
  exact ⟨_, exec_of_effect (.call s a r ha (by omega) hs held), s.writeReg_reg_same _ _, stored, zext9_toNat _,
    ((UnchangedBut.refl _ s).push (List.mem_singleton_self _) (List.mem_singleton_self _) _).setPc _⟩

/-- RET takes the pc from the byte at SP and moves SP up (45_control_transfer.md R83). -/
theorem exec_ret_pops (hs : s.sp ≠ 255) :
    ∃ t, exec .ret s = .next t ∧ t.sp = s.sp + 1 ∧ t.pc.toNat = (s.mem.read s.sp.toNat).toNat ∧
      UnchangedBut { regs := [7] } s t :=
  ⟨_, exec_of_effect (.ret s hs), s.writeReg_reg_same _ _, zext9_toNat _,
    ((UnchangedBut.refl _ s).writeReg (List.mem_singleton_self _) _).setPc _⟩

/-- Settles O22: CALL's effect is the push of pc + 2 and the jump; its own faults are those of the return address, which at
254 is 256, and then of SP. -/
theorem callPushesTheReturnAddress : Obligations.CallPushesTheReturnAddress := by
  have hop : OpcodeIs 0x50 .call .f1R 1 false true := ⟨rom_call, by decide, by decide, by decide⟩
  refine ⟨hop, fun a s => oneRegister_rule hop rfl rfl fun r ha => ⟨fun h254 => ?_,
    fun hpc hs => exec_entersFault_of_reason (.callAtZero s a r ha (by omega) hs), fun hpc hs held hwf => ?_⟩⟩
  · have fault := exec_entersFault_of_reason (.returnAddress s a r ha (by omega))
    rwa [h254] at fault
  · obtain ⟨t, e, sp, stored, pc, frame⟩ := exec_call_pushes ha hpc hs held hwf
    have down := toNat_sub_one hs
    exact ⟨t, e, sp ▸ down, stored, fun hr => by rwa [if_neg hr] at pc, fun hr => by rwa [if_pos hr, down] at pc, frame⟩

/-- Settles O23: RET's effect is the pop into the pc; its fault is that of the check of SP. -/
theorem retPopsThePc : Obligations.RetPopsThePc := by
  refine ⟨⟨rom_ret, by decide, by decide, by decide⟩, decode_encode_append .ret [], fun s =>
    ⟨fun hs => exec_entersFault_of_reason (.retAtTop s hs), fun hs => ?_⟩⟩
  obtain ⟨t, e, sp, pc, frame⟩ := exec_ret_pops hs
  exact ⟨t, e, sp ▸ toNat_add_one hs, pc, frame⟩

/-- Settles O50: RET finds SP where CALL left it, at the return address, and moves it back up; every other register stands
outside both frames. -/
theorem callThenRetResumes : Obligations.CallThenRetResumes := by
  intro a r s ha held hpc hs hwf
  obtain ⟨t, et, down, stored, -, called⟩ := exec_call_pushes ha hpc hs held hwf
  have ht : t.sp ≠ 255 := by
    rw [down]
    bv_omega
  obtain ⟨u, eu, up, pc, returned⟩ := exec_ret_pops ht
  rw [down, stored] at pc
  refine ⟨t, u, et, eu, pc, fun q => ?_, (returned.run rfl).trans (called.run rfl),
    (returned.fl rfl).1.trans (called.fl rfl).1⟩
  by_cases hq : q = 7
  · rw [hq]
    calc u.sp = t.sp + 1 := up
      _ = s.sp := by rw [down, BitVec.sub_add_cancel]
  · have other : q ∉ [(7 : Reg)] := fun h => hq (List.mem_singleton.mp h)
    exact (returned.regs q other).1.trans (called.regs q other).1

end Sys2Proof.Machine
end

section
/-! Faults: that a step enters one with a cause and changes nothing else, and the fault of an opcode byte that is not in the
decode ROM (spec 60_exceptions.md R90, R97). -/

namespace Sys2Proof

/-- Bytes that begin with an invalid opcode byte do not decode, whatever follows it (30_encoding.md R49). -/
theorem decode_cons_of_invalid {op : Byte} (h : rom op = none) (bs : List Byte) :
    decode (op :: bs) = .error (.illegalOpcode op) := by
  rw [decode, h]

namespace Machine

variable {i : Instr} {s t : State} {c : FaultCause} {info : Word9}

/-- The fetch raises no fault without a cause (60_exceptions.md R90, R92). -/
theorem FetchReason.cause_ne_none (h : FetchReason s c info) : c ≠ .none := by
  cases h <;> decide

/-- An instruction raises no fault without a cause (60_exceptions.md R91-R94). -/
theorem FaultReason.cause_ne_none (h : FaultReason i s c info) : c ≠ .none := by
  cases h <;> decide

/-- A step that ends Faulted has raised a cause on the state it began with, and has done nothing else: no effect of an
instruction and no UnwrittenRead leaves a Running core Faulted (60_exceptions.md R97). -/
theorem RunningStep.eq_raise_of_faulted (h : RunningStep s t) (hs : s.TakesSteps) (ht : t.run = .faulted) :
    ∃ c info, c ≠ .none ∧ t = s.beginStep.raise c info := by
  cases h with
  | effect _ he => exact absurd ht (he.run_ne_faulted hs.1)
  | fetchFault hf => exact ⟨_, _, hf.cause_ne_none, rfl⟩
  | execFault _ hf => exact ⟨_, _, hf.cause_ne_none, rfl⟩
  | unwrittenRead _ => exact absurd (hs.1.symm.trans ht) (by decide)

/-- Settles O13: the step has raised a cause on the state it began with, where the pulse of the step before is over, and
raising is fault entry. -/
theorem faultsArePrecise : Obligations.FaultsArePrecise := by
  intro s t hs h ht
  obtain ⟨c, info, hc, rfl⟩ := (runningStep_of_step hs h).eq_raise_of_faulted hs ht
  rw [h]
  exact ⟨hc, rfl, entersFault_raise _ c info⟩

/-- Settles O9: the bytes from the pc on begin with the invalid byte, so the decoder names it and the fetch records it. -/
theorem invalidOpcodeFaults : Obligations.InvalidOpcodeFaults := by
  refine ⟨rfl, by decide, fun s hs hpc ho hr => ?_⟩
  have hd : decode (bytesFromPc s) = .error (.illegalOpcode (s.mem.read s.pc.toNat)) := by
    rw [bytesFromPc_eq hpc, decode_cons_of_invalid hr]
  exact step_entersFault_of_fetch hs (fetch_error (s := s.beginStep) hpc ho hd)

end Machine

end Sys2Proof
end

section
/-! Reset and launch: what a load-port write, a reset edge and a reset period leave, and the obligations on them (spec
70_reset_and_hazards.md R106-R110). -/

namespace Sys2Proof.Machine

variable {m : Memory} {s : State}

/-! ### What the load port writes -/

theorem Memory.read_loadWrite (hm : m.wf) (p : LoadPins) (a : Nat) :
    (m.loadWrite p).read a = if p.loadWe = true ∧ a = p.loadAddr.toNat then p.loadData else m.read a := by
  unfold Memory.loadWrite
  split
  next we => simp only [Memory.read_write hm, we, true_and]
  next we => rw [if_neg fun h => we h.1]

/-- Bytes placed inside memory are what is read from their addresses, and every other cell is as it was. -/
theorem Memory.read_place {bs : List Byte} {a : Nat} (hm : m.wf) (fits : a + bs.length ≤ 256) (c : Nat) :
    (m.place a bs).read c = if c < a then m.read c else bs.getD (c - a) (m.read c) := by
  induction bs generalizing m a with
  | nil => simp [Memory.place]
  | cons b bs ih =>
    rw [List.length_cons] at fits
    rw [Memory.place, ih (Memory.wf_write hm (by omega) b) (by omega)]
    rcases Nat.lt_trichotomy c a with hlt | rfl | hgt
    · rw [if_pos (by omega), if_pos hlt, Memory.read_write_ne m b (by omega)]
    · rw [if_pos (by omega), if_neg (by omega), Memory.read_write_same hm, Nat.sub_self, List.getD_cons_zero]
    · obtain ⟨k, hk⟩ : ∃ k, c = a + 1 + k := Nat.exists_eq_add_of_le hgt
      rw [if_neg (by omega), if_neg (by omega), Memory.read_write_ne m b (by omega), show c - a = k + 1 by omega,
        show c - (a + 1) = k by omega, List.getD_cons_succ]

/-! ### One reset edge -/

/-- The memory that a reset edge's load-port write finds: cleared on the first edge of the period, kept on a later one
(70_reset_and_hazards.md R106). -/
def State.memInReset (s : State) : Memory := if s.rstSeen then s.mem else []

theorem State.resetEdge_mem (s : State) (p : LoadPins) : (s.resetEdge p).mem = s.memInReset.loadWrite p := rfl

theorem State.memInReset_wf (hm : s.mem.wf) : s.memInReset.wf := by
  unfold State.memInReset
  split
  · exact hm
  · exact Memory.wf_nil

theorem State.read_memInReset (s : State) (a : Nat) :
    s.memInReset.read a = if s.rstSeen = true then s.mem.read a else 0 := by
  unfold State.memInReset
  split <;> rfl

/-- A reset edge leaves the reset state but for memory and the mark of the edge, so its invariant carries over from there
(70_reset_and_hazards.md R106). -/
theorem State.resetEdge_inv (hm : s.mem.wf) (p : LoadPins) : (s.resetEdge p).Inv :=
  { State.resetWith_inv s.params (s.resets + 1) with
    memWf := Memory.wf_loadWrite (State.memInReset_wf hm) p
    heldInReset := fun _ => rfl }

/-- Settles O36: of the state before, only the canonical form of memory is needed. -/
theorem resetEdgeKeepsInvariant : Obligations.ResetEdgeKeepsInvariant := fun _ p inv =>
  State.resetEdge_inv inv.memWf p

/-- Settles O45: the edge writes the load port's byte into the memory that it has cleared or kept. -/
theorem resetEdgeSetsTheState : Obligations.ResetEdgeSetsTheState := by
  intro s p hm
  refine ⟨rfl, fun a => ?_⟩
  rw [State.resetEdge_mem, Memory.read_loadWrite (State.memInReset_wf hm), State.read_memInReset]

/-! ### The reset period of a launch -/

/-- The state of a core with parameters `p` while it is held in reset with memory `m`: the reset state but for memory and
the mark of the edge (10_state.md R21, R28). -/
def InReset (p : Config.Params) (m : Memory) (s : State) : Prop :=
  s = { State.resetWith p s.resets with mem := m, rstSeen := true }

/-- The first edge of a reset period, with the load port idle, clears memory (70_reset_and_hazards.md R106). -/
theorem inReset_first_edge (h : s.rstSeen = false) : InReset s.params [] (s.resetEdge LoadPins.idle) := by
  have cleared : s.memInReset = [] := by rw [State.memInReset, h]; rfl
  rw [← cleared]
  rfl

/-- A later edge adds the load port's write to memory (70_reset_and_hazards.md R107). -/
theorem InReset.resetEdge {p : Config.Params} (h : InReset p m s) (e : LoadPins) :
    InReset p (m.loadWrite e) (s.resetEdge e) := by
  rw [h]
  rfl

/-- The edges that load an image place its bytes in memory (70_reset_and_hazards.md R108). -/
theorem InReset.resetPeriod_imageEdges {p : Config.Params} {base : Nat} {img : List Byte} (h : InReset p m s)
    (fits : base + img.length ≤ 256) :
    InReset p (m.place base img) (s.resetPeriod (imageEdges base img)) := by
  induction img generalizing m s base with
  | nil => exact h
  | cons b img ih =>
    rw [List.length_cons] at fits
    have addr : (BitVec.ofNat 8 base).toNat = base := Nat.mod_eq_of_lt (by omega)
    have edge := h.resetEdge { loadWe := true, loadAddr := BitVec.ofNat 8 base, loadData := b }
    rw [Memory.loadWrite, if_pos rfl, addr] at edge
    exact ih edge (by omega)

/-- Release leaves the reset state with the memory that the period has loaded (70_reset_and_hazards.md R109). -/
theorem InReset.beginStep {p : Config.Params} (h : InReset p m s) :
    s.beginStep = { State.resetWith p s.resets with mem := m } := congrArg State.beginStep h

/-- A launch leaves the reset state with the image placed from address 0 in cleared memory (70_reset_and_hazards.md
R108, R109). -/
theorem launch_eq_next (s : State) {img : List Byte} (fits : img.length ≤ 256) :
    ∃ n, launch s img = .next { State.resetWith s.params n with mem := Memory.place [] 0 img } := by
  have cleared := inReset_first_edge (s := { s with rstSeen := false }) rfl
  have loaded := cleared.resetPeriod_imageEdges (base := 0) (img := img) (by omega)
  exact ⟨_, (if_pos fits).trans (congrArg Host.Outcome.next loaded.beginStep)⟩

/-- Settles O46: the image is placed from address 0, and the cells past its end are cleared ones. -/
theorem launchLoadsTheImage : Obligations.LaunchLoadsTheImage := by
  intro s img fits
  obtain ⟨n, h⟩ := launch_eq_next s fits
  have fits' : 0 + img.length ≤ 256 := by omega
  refine ⟨_, h, rfl, wf_place Memory.wf_nil 0 img fits', fun a => ?_⟩
  exact Memory.read_place Memory.wf_nil fits' a

/-- Settles O47: the launch state of the empty image has the byte 0 at its pc, which is no valid opcode. -/
theorem refusedAndEmptyLaunches : Obligations.RefusedAndEmptyLaunches := by
  refine ⟨fun _ _ tooLong => if_neg (Nat.not_le.mpr tooLong), fun s => ?_⟩
  obtain ⟨n, h⟩ := launch_eq_next s (img := []) (Nat.zero_le _)
  obtain ⟨-, invalid, fault⟩ := invalidOpcodeFaults
  exact ⟨_, h, fault (State.resetWith s.params n) ⟨rfl, rfl⟩ (Nat.zero_le _) (.inr (Nat.zero_le _)) invalid⟩

end Sys2Proof.Machine
end
